-- ==== Sys2Proof/Word.lean ====
section
/-! DEFINITION. The widths of the block (00_scope.md R9, R11): bytes, 16-bit words, 32-bit words and responses, and the
two operand widths of 30_encoding.md R63. All values are unsigned. -/

namespace Sys2Proof

/-- A byte of `MEM` (20_memory.md R40). -/
abbrev Byte := BitVec 8

/-- A summed word, a packet field, `SEQ`, `IDENT` or `RESULT` (00_scope.md R9). -/
abbrev Half := BitVec 16

/-- A command word, `ACC`, `FCMD` or response data (00_scope.md R9). -/
abbrev Word := BitVec 32

/-- A 12-bit operand: an address, a base or a length (30_encoding.md R63). -/
abbrev Addr := BitVec 12

/-- A 4-bit register number (30_encoding.md R63). -/
abbrev RegNum := BitVec 4

end Sys2Proof
end

