-- ==== Sys2Proof/Syntax.lean ====
section
/-! DEFINITION. The command set of 30_encoding.md R64: one constructor per row of the opcode table, with the operands of
R63. Every operand's type has exactly its field's width, so every term of `Instr` has an encoding. -/

namespace Sys2Proof

/-- A command (30_encoding.md R64). -/
inductive Instr where
  /-- `NOP` (42_access.md R120). -/
  | nop
  /-- `BUILD` (41_packet_builder.md R102). -/
  | build
  /-- `SEAL` (41_packet_builder.md R104); `seal` itself is a reserved word of Lean. -/
  | sealPkt
  /-- `CSUM base, len` (40_checksum.md R87). -/
  | csum (base len : Addr)
  /-- `LDB addr` (42_access.md R121). -/
  | ldb (addr : Addr)
  /-- `STB addr, data` (42_access.md R122). -/
  | stb (addr : Addr) (data : Byte)
  /-- `RDREG reg` (42_access.md R123). -/
  | rdreg (reg : RegNum)
  deriving DecidableEq, Repr

end Sys2Proof
end

