-- ==== Sys2Proof/Decode.lean ====
section
/-! DEFINITION. Decoding and encoding of command words (30_encoding.md R60 to R68): total on the 2^32 words, every word
that is no command refused with the reason R66 gives. -/

namespace Sys2Proof

/-- Why a word is illegal: the five cases of 30_encoding.md R66. All raise the one fault `E_ILLEGAL`. -/
inductive IllegalWord where
  /-- R66 (a): `op` in 0x07 to 0xFF. -/
  | unassignedOp (op : Byte)
  /-- R66 (b): `NOP`, `BUILD` or `SEAL` with any of bits 23:0 set. -/
  | noOperandZero (op : Byte)
  /-- R66 (c): `LDB` with any of bits 11:0 set. -/
  | ldbZero
  /-- R66 (d): `STB` with any of bits 11:8 set. -/
  | stbZero
  /-- R66 (e): `RDREG` with any of bits 23:4 set. -/
  | rdregZero
  deriving DecidableEq, Repr

/-- `cmd[31:24]` (R61, R62). -/
def opField (w : Word) : Byte := w.extractLsb' 24 8

/-- `cmd[23:12]`: `base` of `CSUM`, `addr` of `LDB` and `STB` (R63). -/
def addrField (w : Word) : Addr := w.extractLsb' 12 12

/-- `cmd[11:0]`: `len` of `CSUM` (R63). -/
def lenField (w : Word) : Addr := w.extractLsb' 0 12

/-- `cmd[7:0]`: `data` of `STB` (R63). -/
def dataField (w : Word) : Byte := w.extractLsb' 0 8

/-- `cmd[3:0]`: `reg` of `RDREG` (R63). -/
def regField (w : Word) : RegNum := w.extractLsb' 0 4

/-- The word is the command of a row exactly when `cmd & mask = match` (R64). -/
def matchesRow (w mask pattern : Word) : Bool := w &&& mask == pattern

/-- The reason of R66 for a word that matches no row, told by its opcode. -/
def illegalReason (w : Word) : IllegalWord :=
  if opField w < 0x03 then .noOperandZero (opField w)
  else if opField w = 0x04 then .ldbZero
  else if opField w = 0x05 then .stbZero
  else if opField w = 0x06 then .rdregZero
  else .unassignedOp (opField w)

/-- The decoder: the rows of R64 in the table's order, operands by R63, and R66 for the rest. -/
def decode (w : Word) : Except IllegalWord Instr :=
  if matchesRow w 0xFFFFFFFF 0x00000000 then .ok .nop
  else if matchesRow w 0xFFFFFFFF 0x01000000 then .ok .build
  else if matchesRow w 0xFFFFFFFF 0x02000000 then .ok .sealPkt
  else if matchesRow w 0xFF000000 0x03000000 then .ok (.csum (addrField w) (lenField w))
  else if matchesRow w 0xFF000FFF 0x04000000 then .ok (.ldb (addrField w))
  else if matchesRow w 0xFF000F00 0x05000000 then .ok (.stb (addrField w) (dataField w))
  else if matchesRow w 0xFFFFFFF0 0x06000000 then .ok (.rdreg (regField w))
  else .error (illegalReason w)

/-- The encoder: the fields of R61, high field first. -/
def encode : Instr → Word
  | .nop => 0x00#8 ++ 0#24
  | .build => 0x01#8 ++ 0#24
  | .sealPkt => 0x02#8 ++ 0#24
  | .csum base len => 0x03#8 ++ base ++ len
  | .ldb addr => 0x04#8 ++ addr ++ 0#12
  | .stb addr data => 0x05#8 ++ addr ++ 0#4 ++ data
  | .rdreg reg => 0x06#8 ++ 0#20 ++ reg

/-- The command read from a word whose bits are `w`, `nbits` of them given and every bit above them 0. A command is one
32-bit word on a parallel port (R44, R60), so the table's bit numbers are the word's; a number with a bit above bit 31 is
no command word. -/
def decodeTableWord (nbits w : Nat) : Option Instr :=
  if w % 2 ^ nbits < 2 ^ 32 then (decode (BitVec.ofNat 32 (w % 2 ^ nbits))).toOption else none

end Sys2Proof
end

