-- ==== Sys2Proof/Config.lean ====
section
/-! DEFINITION. The parameters of 00_scope.md R9 and R10: the constants the spec fixes, the configuration `Cfg` it leaves
open, and the free values. -/

namespace Sys2Proof

/-- The configuration `cfg` (00_scope.md R9, R10): the open parameters, fixed for a run. It is no state of the block but an
argument of its step function (10_state.md R33 (a)). -/
structure Cfg where
  /-- `MEM_BYTES`, the size of the buffer memory. -/
  memBytes : Nat
  /-- `IDENT_VALUE`, the identifier written into every packet. -/
  ident : Half
  deriving DecidableEq, Repr

/-- The constraint of 00_scope.md R10 on `MEM_BYTES`; `IDENT_VALUE` is any 16-bit value. -/
abbrev Cfg.Legal (c : Cfg) : Prop := 64 ≤ c.memBytes ∧ c.memBytes ≤ 4096

/-- `PKT_BYTES`: the length of the IcmpPacket and of the packet buffer. -/
abbrev Config.pktBytes : Nat := 64

/-- `HDR_BYTES`: the bytes before the payload. -/
abbrev Config.hdrBytes : Nat := 8

/-- `PAYLOAD_BYTES`. -/
abbrev Config.payloadBytes : Nat := 56

/-- `ICMP_ECHO_REQUEST`: the value of the `type` byte. -/
abbrev Config.icmpEchoRequest : Byte := 8

/-- `ICMP_CODE`: the value of the `code` byte. -/
abbrev Config.icmpCode : Byte := 0

/-- `SEQ_RESET`: `SEQ` after reset. -/
abbrev Config.seqReset : Half := 0

/-- The default of `MEM_BYTES`. -/
abbrev Config.memBytesDefault : Nat := 256

/-- Offset of the `type` byte in the packet buffer (41_packet_builder.md R100). -/
abbrev Config.offType : Nat := 0

/-- Offset of the `code` byte (R100). -/
abbrev Config.offCode : Nat := 1

/-- Offset of the `checksum` field (R100). -/
abbrev Config.offChecksum : Nat := 2

/-- Offset of the `identifier` field (R100). -/
abbrev Config.offIdentifier : Nat := 4

/-- Offset of the `sequence` field (R100). -/
abbrev Config.offSequence : Nat := 6

/-- Offset of the payload (R100). -/
abbrev Config.offPayload : Nat := 8

/-- FREE VALUE (10_state.md R31, U1; notes entry 4): the byte that address `a` of `MEM` holds after reset, until a command
writes it. The spec gives no value and forbids assuming one. -/
opaque Config.resetByte (a : Nat) : Byte

/-- FREE VALUE (00_scope.md R9, U2; notes entry 3): the identifier of the machine `State.reset` describes. The spec gives
no default. -/
opaque Config.identValue : Half

end Sys2Proof
end

