-- ==== Sys2Proof/Machine/State.lean ====
section
/-! DEFINITION. The state of the block as plain data (`Block`: the seven items of 10_state.md R20), and the block with the
arguments and the result of its step (`State`: R33 (a) to (c)), which the host's interface passes as one value. -/

namespace Sys2Proof.Machine

/-- `MEM` as the bytes written since reset, addresses strictly rising. An unlisted address holds no written byte; a read
of it gives the free reset byte (`Block.byteAt`; notes entry 4). -/
abbrev Memory := List Host.Cell

/-- The response of one command (30_encoding.md R71): `rsp_data` and `rsp_err`. -/
structure Response where
  data : Word
  err : BitVec 4
  deriving DecidableEq, Repr

/-- The fault causes of 60_exceptions.md R140: exactly these four (U10). -/
inductive FaultCode where
  /-- `E_ILLEGAL`: the word is no command. -/
  | illegal
  /-- `E_REGNUM`: `RDREG` of register 6 to 15. -/
  | regnum
  /-- `E_RANGE`: an address or range that is not admitted. -/
  | range
  /-- `E_HALTED`: any word issued while `STATUS.ERR ≠ 0`; response only, never latched. -/
  | halted
  deriving DecidableEq, Repr

/-- The state of the block: exactly the seven items of 10_state.md R20, and no others. What R33 says is not state (the
configuration, the command word and the words to come, the response) is argument or result of the block's step function
`Block.step`. -/
structure Block where
  /-- `MEM` (R21). -/
  mem : Memory
  /-- `SEQ` (R22). -/
  seq : Half
  /-- `ACC` (R24). -/
  acc : Word
  /-- `RESULT` (R25). -/
  result : Half
  /-- `STATUS.Z` (R26). -/
  z : Bool
  /-- `STATUS.ERR` (R26). -/
  err : BitVec 4
  /-- `FCMD` (R27). -/
  fcmd : Word
  deriving DecidableEq, Repr

/-- The block together with the arguments and the result of its step function. The host's interface gives a step one
argument and one result of one type, so what R33 (a) to (c) passes beside the state travels beside the block here, in
three fields of the model's own (notes entries 1 to 3). No meaning lets any of them into the block's state but as R4 does:
the configuration and the word are read, the response is written. -/
structure State extends Block where
  /-- R33 (a): the configuration, the argument `cfg` of every step (00_scope.md R4); no step changes it (notes entry 3). -/
  cfg : Cfg
  /-- R33 (b): the words the host will issue, oldest first; each step's argument `cmd` is the oldest (notes entry 1). -/
  cmds : List Word
  /-- R33 (c): the response the last step gave, absent where it answered no word (notes entry 2). Every step overwrites it
  and none reads it. -/
  rsp : Option Response
  deriving DecidableEq, Repr

/-- The reasons a step could stop with a fault outcome: none. Every fault of the spec is a next state, in which the code is
latched and the engine is halted (60_exceptions.md R142, R143; notes entry 6). -/
inductive Fault where
  deriving DecidableEq, Repr

/-- The reasons a step could be refused. -/
inductive Refusal where
  /-- Raised by the arm of `exec` for a command without a meaning, of which there is none: every row of the opcode table
  has its meaning. Safe: the model stops where the hardware goes on. -/
  | notModelled (mnemonic : String)
  deriving DecidableEq, Repr

/-- The reset state of the block (10_state.md R31): the registers at the values the spec gives, no byte of `MEM` written. -/
def Block.reset : Block where
  mem := []
  seq := Config.seqReset
  acc := 0
  result := 0
  z := false
  err := 0
  fcmd := 0

/-- The machine right after reset: the block's reset state, the spec's default `MEM_BYTES` and the free `IDENT_VALUE` (notes
entry 3), and no word issued. -/
def State.reset : State where
  toBlock := Block.reset
  cfg := { memBytes := Config.memBytesDefault, ident := Config.identValue }
  cmds := []
  rsp := none

end Sys2Proof.Machine
end

