-- ==== Sys2Proof/Machine/Ops.lean ====
section
/-! DEFINITION. The named operations over memory and state: byte order, `MemRead` and `MemWrite` (20_memory.md R55, R56),
the response, taking a fault (60_exceptions.md R142, R143), reset (70_reset_and_hazards.md R160), and the block behind the
host's interface. -/

namespace Sys2Proof.Machine

/-! Byte order (20_memory.md R42, R43). -/

/-- `v[15:8]`, the byte stored at the lower address. -/
def hiByte (v : Half) : Byte := v.extractLsb' 8 8

/-- `v[7:0]`, the byte stored at the higher address. -/
def loByte (v : Half) : Byte := v.extractLsb' 0 8

/-- `hi ∥ lo` (00_scope.md R11). -/
def joinBytes (hi lo : Byte) : Half := hi ++ lo

/-! The list of written bytes. -/

/-- The canonical form: addresses strictly rising. An unlisted address reads as no byte at this level, so no entry can equal
what an unlisted address reads as. -/
abbrev Memory.wf (m : Memory) : Prop := (m.map Prod.fst).Pairwise (· < ·)

/-- The byte listed at `a`; `none` is what every unlisted address reads as. -/
def Memory.get? : Memory → Nat → Option Byte
  | [], _ => none
  | (k, b) :: rest, a => if k = a then some b else Memory.get? rest a

/-- Lists the byte `b` at `a`, in place of the byte listed there before. -/
def Memory.put : Memory → Nat → Byte → Memory
  | [], a, b => [(a, b)]
  | (k, c) :: rest, a, b =>
    if k < a then (k, c) :: Memory.put rest a b
    else if k = a then (a, b) :: rest
    else (a, b) :: (k, c) :: rest

/-! Access primitives. -/

/-- `MEM[a]`: the last byte written there since reset, or the unspecified byte it held after reset (20_memory.md R50,
10_state.md R31). -/
def Block.byteAt (b : Block) (a : Nat) : Byte := (b.mem.get? a).getD (Config.resetByte a)

/-- `MEM[a] <- v`. -/
def Block.setByte (b : Block) (a : Nat) (v : Byte) : Block := { b with mem := b.mem.put a v }

/-- `MemRead(addr, 1)` (20_memory.md R55). -/
def Block.memRead1 (b : Block) (addr : Nat) : Byte := b.byteAt addr

/-- `MemRead(addr, 2)` (20_memory.md R55): the high byte is at the lower address. -/
def Block.memRead2 (b : Block) (addr : Nat) : Half := joinBytes (b.byteAt addr) (b.byteAt (addr + 1))

/-- `MemWrite(addr, 1, v)` (20_memory.md R56). -/
def Block.memWrite1 (b : Block) (addr : Nat) (v : Byte) : Block := b.setByte addr v

/-- `MemWrite(addr, 2, v)` (20_memory.md R56). -/
def Block.memWrite2 (b : Block) (addr : Nat) (v : Half) : Block :=
  (b.setByte addr (hiByte v)).setByte (addr + 1) (loByte v)

/-- `MEM[base], ..., MEM[base + len - 1]`: `len` bytes, lowest address first. -/
def Block.bytes (b : Block) (base len : Nat) : List Byte := (List.range len).map fun i => b.byteAt (base + i)

/-- `for i in base .. base + n - 1: MEM[i] <- v`. -/
def Block.memFill (b : Block) (base : Nat) (v : Byte) : Nat → Block
  | 0 => b
  | n + 1 => (b.memFill base v n).setByte (base + n) v

/-! Responses and faults. An outcome of a word is the block's next state and the response (00_scope.md R4). -/

/-- `rsp <- d` (00_scope.md R11): the response data is `d` and the response error code 0. -/
def Block.respond (b : Block) (d : Word) : Block × Response := (b, ⟨d, 0⟩)

/-- The 4-bit code of 60_exceptions.md R140. -/
def FaultCode.bits : FaultCode → BitVec 4
  | .illegal => 1
  | .regnum => 2
  | .range => 3
  | .halted => 15

/-- The column "latched in STATUS.ERR" of 60_exceptions.md R140. -/
def FaultCode.latched : FaultCode → Bool
  | .illegal | .regnum | .range => true
  | .halted => false

/-- The engine is halted exactly while `STATUS.ERR ≠ 0` (60_exceptions.md R143); the port `halted` (10_state.md R33 (d)). -/
def Block.halted (b : Block) : Bool := b.err != 0

/-- Taking a fault in the word `cmd`: for a latched code `raise Fault(code)` of 60_exceptions.md R142, for `E_HALTED` the
refusal of R143, which changes no state. Both respond with data 0 and the code. There is no return from a fault (R144);
the one way out is `Block.assertReset`. -/
def Block.takeFault (b : Block) (c : FaultCode) (cmd : Word) : Block × Response :=
  ({ b with
    err := if c.latched then c.bits else b.err
    fcmd := if c.latched then cmd else b.fcmd }, ⟨0, c.bits⟩)

/-- The first check of 60_exceptions.md R141: a halted engine refuses the word `cmd`, whatever it is; otherwise the word has
the outcome `k`. -/
def Block.whenRunning (b : Block) (cmd : Word) (k : Block × Response) : Block × Response :=
  if b.halted then b.takeFault .halted cmd else k

/-- Reset through the `rst` port (70_reset_and_hazards.md R160), from whatever state: the registers take the values of
10_state.md R31, and `contents`, any memory at all, is the fresh unspecified input that `MEM` then holds. It is no step of a
run (00_scope.md R8; notes entry 5). -/
def Block.assertReset (_ : Block) (contents : Memory) : Block := { Block.reset with mem := contents }

/-! The block behind the host's interface. -/

/-- A step's result: the block's next state and the response, beside the configuration and the words still to come. -/
def State.answer (s : State) (r : Block × Response) : State := { s with toBlock := r.1, rsp := some r.2 }

/-- The word `cmd`, whose outcome in an engine that runs is `r`, is executed and answered (60_exceptions.md R141, R143). -/
def perform (cmd : Word) (r : Block × Response) (s : State) : Host.Outcome State Fault Refusal :=
  .next (s.answer (s.toBlock.whenRunning cmd r))

/-- Reset of the machine: the block is reset, the configuration stays (70_reset_and_hazards.md R161), the words the host has
not issued yet are the host's and stay, and no response is given (R160). -/
def State.assertReset (s : State) (contents : Memory) : State :=
  { s with toBlock := s.toBlock.assertReset contents, rsp := none }

end Sys2Proof.Machine
end

