-- ==== Sys2Proof/Machine/Flags.lean ====
section
/-! DEFINITION. The one flag and the STATUS view (10_state.md R26). -/

namespace Sys2Proof.Machine

/-- `STATUS.Z` as `CSUM` and `SEAL` write it: 1 exactly when the checksum they return is 0x0000. -/
def zeroFlag (c : Half) : Bool := c == 0

/-- The 32-bit view `STATUS`: `ERR` in bits 7:4, `Z` in bit 1, `HALT` in bit 0, the reserved bits 0. -/
def Block.statusView (b : Block) : Word :=
  0#24 ++ b.err ++ 0#2 ++ BitVec.ofBool b.z ++ BitVec.ofBool b.halted

end Sys2Proof.Machine
end

