-- ==== Sys2Proof/Machine/Operands.lean ====
section
/-! DEFINITION. The operand forms: range admission (20_memory.md R48) and register numbers (10_state.md R30). -/

namespace Sys2Proof.Machine

/-- A single address is admitted exactly when it is below `MEM_BYTES` (R48). -/
def addrAdmitted (cfg : Cfg) (addr : Addr) : Bool := decide (addr.toNat < cfg.memBytes)

/-- A range is admitted exactly when `base + len ≤ MEM_BYTES`, the sum taken in natural numbers (R48). -/
def rangeAdmitted (cfg : Cfg) (base len : Addr) : Bool := decide (base.toNat + len.toNat ≤ cfg.memBytes)

/-- The registers of R30. -/
inductive RegName where
  | status
  | seq
  | ident
  | acc
  | result
  | fcmd
  deriving DecidableEq, Repr

/-- The register of a number (R30); numbers 6 to 15 name none. -/
def regOfNum (n : RegNum) : Option RegName :=
  match n.toNat with
  | 0 => some .status
  | 1 => some .seq
  | 2 => some .ident
  | 3 => some .acc
  | 4 => some .result
  | 5 => some .fcmd
  | _ => none

/-- The 32-bit read value of a register, zero-extended (R30). -/
def Block.readReg (cfg : Cfg) (b : Block) : RegName → Word
  | .status => b.statusView
  | .seq => b.seq.setWidth 32
  | .ident => cfg.ident.setWidth 32
  | .acc => b.acc
  | .result => b.result.setWidth 32
  | .fcmd => b.fcmd

end Sys2Proof.Machine
end

