-- ==== Sys2Proof/Machine/Access.lean ====
section
/-! DEFINITION. The host access commands (42_access.md): `NOP`, `LDB`, `STB`, `RDREG`. -/

namespace Sys2Proof.Machine

/-- The pseudocode of `NOP` (R120). -/
def Block.nop (b : Block) : Block × Response := b.respond 0

/-- `NOP` (R120). -/
def execNop (s : State) : Host.Outcome State Fault Refusal := perform (encode .nop) s.toBlock.nop s

/-- The pseudocode of `LDB addr` (R121): the byte, zero-extended. -/
def Block.ldb (cfg : Cfg) (addr : Addr) (b : Block) : Block × Response :=
  if addrAdmitted cfg addr then b.respond ((b.memRead1 addr.toNat).setWidth 32)
  else b.takeFault .range (encode (.ldb addr))

/-- `LDB addr` (R121). -/
def execLdb (addr : Addr) (s : State) : Host.Outcome State Fault Refusal :=
  perform (encode (.ldb addr)) (s.toBlock.ldb s.cfg addr) s

/-- The pseudocode of `STB addr, data` (R122). -/
def Block.stb (cfg : Cfg) (addr : Addr) (data : Byte) (b : Block) : Block × Response :=
  if addrAdmitted cfg addr then (b.memWrite1 addr.toNat data).respond 0
  else b.takeFault .range (encode (.stb addr data))

/-- `STB addr, data` (R122). -/
def execStb (addr : Addr) (data : Byte) (s : State) : Host.Outcome State Fault Refusal :=
  perform (encode (.stb addr data)) (s.toBlock.stb s.cfg addr data) s

/-- The pseudocode of `RDREG reg` (R123). -/
def Block.rdreg (cfg : Cfg) (reg : RegNum) (b : Block) : Block × Response :=
  match regOfNum reg with
  | some r => b.respond (b.readReg cfg r)
  | none => b.takeFault .regnum (encode (.rdreg reg))

/-- `RDREG reg` (R123). -/
def execRdreg (reg : RegNum) (s : State) : Host.Outcome State Fault Refusal :=
  perform (encode (.rdreg reg)) (s.toBlock.rdreg s.cfg reg) s

end Sys2Proof.Machine
end

