-- ==== Sys2Proof/Machine/Checksum.lean ====
section
/-! DEFINITION. The checksum engine (40_checksum.md): word sum, fold, complement, and the command `CSUM`. -/

namespace Sys2Proof.Machine

/-- The loop of R80 from the accumulator `acc`: whole words big-endian, an odd last byte as a high byte (R81), sums modulo
2^32. -/
def wordsumFrom (acc : Word) : List Byte → Word
  | b0 :: b1 :: rest => wordsumFrom (acc + (joinBytes b0 b1).setWidth 32) rest
  | [b] => acc + (joinBytes b 0x00).setWidth 32
  | [] => acc

/-- `wordsum(B)` (R80): the accumulator starts at 0. -/
def wordsum (bytes : List Byte) : Word := wordsumFrom 0 bytes

/-- `s[31:16]`: the carry still to be folded (R83). -/
def carryPart (s : Word) : Half := s.extractLsb' 16 16

/-- One pass of the loop of R83: `s[15:0] + s[31:16]`. -/
def foldPass (s : Word) : Word := (s.extractLsb' 0 16).setWidth 32 + (carryPart s).setWidth 32

/-- The loop of R83, "until no carry remains", cut off after `n` passes. -/
def foldLoop : Nat → Word → Word
  | 0, s => s
  | n + 1, s => if carryPart s = 0 then s else foldLoop n (foldPass s)

/-- `fold(acc)` (R83). The loop ends within two passes on every accumulator (R84); it is given four, so the cut-off is not
what ends it (notes entry 9). -/
def fold (acc : Word) : Half := (foldLoop 4 acc).extractLsb' 0 16

/-- `chk(B) = ~fold(wordsum(B))` (R85, R86). -/
def chk (bytes : List Byte) : Half := ~~~(fold (wordsum bytes))

/-- What `CSUM` and `SEAL` do with a raw sum (R87, R104): `ACC`, `RESULT`, `Z` and the response. -/
def Block.deliverChecksum (b : Block) (raw : Word) : Block × Response :=
  { b with
    acc := raw
    result := ~~~(fold raw)
    z := zeroFlag (~~~(fold raw)) }.respond ((~~~(fold raw)).setWidth 32)

/-- The pseudocode of `CSUM base, len` (R87). -/
def Block.csum (cfg : Cfg) (base len : Addr) (b : Block) : Block × Response :=
  if rangeAdmitted cfg base len then b.deliverChecksum (wordsum (b.bytes base.toNat len.toNat))
  else b.takeFault .range (encode (.csum base len))

/-- `CSUM base, len` (R87). -/
def execCsum (base len : Addr) (s : State) : Host.Outcome State Fault Refusal :=
  perform (encode (.csum base len)) (s.toBlock.csum s.cfg base len) s

end Sys2Proof.Machine
end

