-- ==== Sys2Proof/Machine/Builder.lean ====
section
/-! DEFINITION. The fixed-packet builder (41_packet_builder.md): the packet's fields as views of `MEM[0..63]`, and the
commands `BUILD` and `SEAL`. -/

namespace Sys2Proof.Machine

/-- The `type` field (R100). -/
def Block.pktType (b : Block) : Byte := b.memRead1 Config.offType

/-- The `code` field (R100). -/
def Block.pktCode (b : Block) : Byte := b.memRead1 Config.offCode

/-- The `checksum` field (R100). -/
def Block.pktChecksum (b : Block) : Half := b.memRead2 Config.offChecksum

/-- The `identifier` field (R100). -/
def Block.pktIdentifier (b : Block) : Half := b.memRead2 Config.offIdentifier

/-- The `sequence` field (R100). -/
def Block.pktSequence (b : Block) : Half := b.memRead2 Config.offSequence

/-- The payload (R100): 56 bytes. -/
def Block.pktPayload (b : Block) : List Byte := b.bytes Config.offPayload Config.payloadBytes

/-- The packet buffer `MEM[0..63]` (20_memory.md R41). -/
def Block.pktBytes (b : Block) : List Byte := b.bytes 0 Config.pktBytes

/-- The writes of `BUILD` to `MEM`, in the order of R102's pseudocode. -/
def Block.writePacket (cfg : Cfg) (b : Block) : Block :=
  (((((b.memFill 0 0x00 Config.pktBytes).memWrite1 Config.offType Config.icmpEchoRequest).memWrite1
    Config.offCode Config.icmpCode).memWrite2 Config.offChecksum 0x0000).memWrite2
    Config.offIdentifier cfg.ident).memWrite2 Config.offSequence b.seq

/-- The advance of the sequence counter (R103): modulo 65536. -/
def nextSeq (v : Half) : Half := v + 1

/-- `SEQ <- SEQ +_16 1` (R103). -/
def Block.advanceSeq (b : Block) : Block := { b with seq := nextSeq b.seq }

/-- The pseudocode of `BUILD` (R102): the response is the sequence number placed in the packet, `SEQ` before the command. -/
def Block.build (cfg : Cfg) (b : Block) : Block × Response :=
  (b.writePacket cfg).advanceSeq.respond (b.seq.setWidth 32)

/-- `BUILD` (R102). -/
def execBuild (s : State) : Host.Outcome State Fault Refusal := perform (encode .build) (s.toBlock.build s.cfg) s

/-- The first line of `SEAL` (R104): the checksum field is zeroed. -/
def Block.clearChecksum (b : Block) : Block := b.memWrite2 Config.offChecksum 0x0000

/-- The raw sum `SEAL` computes (R104): over the packet buffer with its checksum field zero. -/
def Block.sealSum (b : Block) : Word := wordsum b.clearChecksum.pktBytes

/-- The pseudocode of `SEAL` (R104). -/
def Block.sealPkt (b : Block) : Block × Response :=
  (b.clearChecksum.memWrite2 Config.offChecksum (~~~(fold b.sealSum))).deliverChecksum b.sealSum

/-- `SEAL` (R104). -/
def execSeal (s : State) : Host.Outcome State Fault Refusal := perform (encode .sealPkt) s.toBlock.sealPkt s

end Sys2Proof.Machine
end

