-- ==== Sys2Proof/Machine/Dispatch.lean ====
section
/-! DEFINITION. One arm per command: the meaning each row of 30_encoding.md R64 names. -/

namespace Sys2Proof.Machine

def exec (i : Instr) (s : State) : Host.Outcome State Fault Refusal :=
  match i with
  | .nop => Sys2Proof.Machine.execNop s
  | .build => Sys2Proof.Machine.execBuild s
  | .sealPkt => Sys2Proof.Machine.execSeal s
  | .csum base len => Sys2Proof.Machine.execCsum base len s
  | .ldb addr => Sys2Proof.Machine.execLdb addr s
  | .stb addr data => Sys2Proof.Machine.execStb addr data s
  | .rdreg reg => Sys2Proof.Machine.execRdreg reg s

end Sys2Proof.Machine
end

