-- ==== Sys2Proof/Machine/Issue.lean ====
section
/-! DEFINITION. Issuing a command word (30_encoding.md R65) and the ends of the command and response ports that the model
keeps (00_scope.md R4 to R8). -/

namespace Sys2Proof.Machine

/-- The outcome of a command in an engine that runs: the row of R64 names its pseudocode. -/
def Block.execute (cfg : Cfg) (b : Block) : Instr → Block × Response
  | .nop => b.nop
  | .build => b.build cfg
  | .sealPkt => b.sealPkt
  | .csum base len => b.csum cfg base len
  | .ldb addr => b.ldb cfg addr
  | .stb addr data => b.stb cfg addr data
  | .rdreg reg => b.rdreg cfg reg

/-- The step function of the spec, `step(cfg, s, cmd) = (s', rsp_data, rsp_err)` (00_scope.md R4), with R33's arguments and
results: halted check, decode, execute (R65, R141). `step`, behind the host's interface, answers exactly this:
the obligation StepIsBlockStep. -/
def Block.step (cfg : Cfg) (b : Block) (cmd : Word) : Block × Response :=
  b.whenRunning cmd <|
    match decode cmd with
    | .error _ => b.takeFault .illegal cmd
    | .ok i => b.execute cfg i

/-- One word issued in a state (R65, R141): halted check, decode, execute. -/
def issueWord (w : Word) (s : State) : Host.Outcome State Fault Refusal :=
  if s.halted then .next (s.answer (s.toBlock.takeFault .halted w))
  else
    match decode w with
    | .error _ => .next (s.answer (s.toBlock.takeFault .illegal w))
    | .ok i => exec i s

/-- No word is issued: the engine keeps its state and answers nothing (60_exceptions.md R152). -/
def State.idle (s : State) : State := { s with rsp := none }

/-- The engine takes the oldest word of the host's stream and answers it; where there is none it idles. -/
def runNext (s : State) : Host.Outcome State Fault Refusal :=
  match s.cmds with
  | [] => .next s.idle
  | w :: rest => issueWord w { s with cmds := rest }

/-- The host issues the words `ws` next, in that order. -/
def State.issue (s : State) (ws : List Word) : State := { s with cmds := ws ++ s.cmds }

/-- The host's next word is the one whose low `nbits` bits are `w`'s and whose other bits are 0. -/
def State.placeWord (s : State) (nbits w : Nat) : State := s.issue [BitVec.ofNat 32 (w % 2 ^ nbits)]

/-- The port `cmd_ready` between two steps (00_scope.md R6): the engine takes a word in every state, halted or not
(60_exceptions.md R143, R152). -/
def State.cmdReady (_ : State) : Bool := true

/-- The port `rsp_valid` after a step (R6). -/
def State.rspValid (s : State) : Bool := s.rsp.isSome

/-- The port `rsp_data` after a step, meaningful with `rsp_valid` (R6). -/
def State.rspData (s : State) : Option Word := s.rsp.map Response.data

/-- The port `rsp_err` after a step, meaningful with `rsp_valid` (R6). -/
def State.rspErr (s : State) : Option (BitVec 4) := s.rsp.map Response.err

end Sys2Proof.Machine
end

