-- ==== Sys2Proof/Machine/Step.lean ====
section
/-! DEFINITION. The step function (00_scope.md R4) and the word it runs next. -/

namespace Sys2Proof.Machine

/-- One step: the oldest word of the command stream is taken and answered (R4, R5). -/
def step (s : State) : Host.Outcome State Fault Refusal := runNext s

/-- `s` with the host issuing the given word next. The block fetches nothing (10_state.md R29): a word comes from the
host. -/
def State.withFetchWord (s : State) (nbits w : Nat) : State := s.placeWord nbits w

end Sys2Proof.Machine
end

