-- ==== Sys2Proof/WellFormed.lean ====
section
/-! DEFINITION. The assembler's commands (30_encoding.md R69, R70), whose operands are numbers a host wrote, and the check
that each number fits its field. A term of `Instr` needs no check: its operands have their fields' widths. -/

namespace Sys2Proof

/-- A command or pseudo-command of the assembler (30_encoding.md R69, R70), its operands as written. -/
inductive SourceCmd where
  | nop
  | build
  | sealPkt
  | csum (base len : Nat)
  | ldb (addr : Nat)
  | stb (addr data : Nat)
  | rdreg (reg : Nat)
  /-- `MKPKT`: `BUILD` then `SEAL`. -/
  | mkpkt
  /-- `VERIFY base, len`: the word of `CSUM base, len`. -/
  | verify (base len : Nat)
  /-- `RDSEQ`: the word of `RDREG 1`. -/
  | rdseq
  deriving DecidableEq, Repr

/-- The operand ranges of 30_encoding.md R63: "An operand outside its field's range is an error of the assembler and has
no encoding" (R69). -/
def SourceCmd.wellFormed : SourceCmd → Bool
  | .nop | .build | .sealPkt | .mkpkt | .rdseq => true
  | .csum base len => decide (base < 4096) && decide (len < 4096)
  | .ldb addr => decide (addr < 4096)
  | .stb addr data => decide (addr < 4096) && decide (data < 256)
  | .rdreg reg => decide (reg < 16)
  | .verify base len => decide (base < 4096) && decide (len < 4096)

end Sys2Proof
end

