-- ==== Sys2Proof/Machine/Assembler.lean ====
section
/-! DEFINITION. The assembler (30_encoding.md R69, R70): the commands a pseudo-command stands for, the words of a source
command, and the textual form of a line. It is the host's tool: no step of the machine uses it. The conventions R69
leaves open are notes entry 12. -/

namespace Sys2Proof.Machine

/-- The commands a source command stands for (R70), its operands taken into their fields. -/
def expandSource : SourceCmd → List Instr
  | .nop => [.nop]
  | .build => [.build]
  | .sealPkt => [.sealPkt]
  | .csum base len => [.csum (BitVec.ofNat 12 base) (BitVec.ofNat 12 len)]
  | .ldb addr => [.ldb (BitVec.ofNat 12 addr)]
  | .stb addr data => [.stb (BitVec.ofNat 12 addr) (BitVec.ofNat 8 data)]
  | .rdreg reg => [.rdreg (BitVec.ofNat 4 reg)]
  | .mkpkt => [.build, .sealPkt]
  | .verify base len => [.csum (BitVec.ofNat 12 base) (BitVec.ofNat 12 len)]
  | .rdseq => [.rdreg 1]

/-- The words of a source command; an operand outside its field's range has no encoding (R69). -/
def assemble (c : SourceCmd) : Option (List Word) :=
  if c.wellFormed then some ((expandSource c).map encode) else none

/-! The textual form. -/

/-- The digit a character writes in the given base: the number below the base whose hexadecimal digit it is, in either case
of letters (R69: decimal, or hexadecimal with `0x`). -/
def digitIn (base : Nat) (c : Char) : Option Nat := (List.range base).find? fun d => d.digitChar == c.toLower

/-- The number that digits write in the given base, after a part of value `acc`. -/
def parseDigits (base : Nat) (acc : Nat) : List Char → Option Nat
  | [] => some acc
  | c :: rest => (digitIn base c).bind fun d => parseDigits base (base * acc + d) rest

/-- A number: decimal, or hexadecimal with `0x` (R69). -/
def parseNumber : List Char → Option Nat
  | [] => none
  | ['0', 'x'] => none
  | '0' :: 'x' :: rest => parseDigits 16 0 rest
  | cs => parseDigits 10 0 cs

/-- A register: a number, or one of the names of R69. -/
def parseRegister : List Char → Option Nat
  | ['S', 'T', 'A', 'T', 'U', 'S'] => some 0
  | ['S', 'E', 'Q'] => some 1
  | ['I', 'D', 'E', 'N', 'T'] => some 2
  | ['A', 'C', 'C'] => some 3
  | ['R', 'E', 'S', 'U', 'L', 'T'] => some 4
  | ['F', 'C', 'M', 'D'] => some 5
  | cs => parseNumber cs

/-- A blank inside a line. -/
def isBlank (c : Char) : Bool := c == ' ' || c == '\t'

/-- A line without the blanks at its ends. -/
def trimBlanks (cs : List Char) : List Char := ((cs.dropWhile isBlank).reverse.dropWhile isBlank).reverse

/-- The operands of a line: its parts between commas, without the blanks at their ends; none for a blank text. -/
def splitOperands (cs : List Char) : List (List Char) :=
  if trimBlanks cs = [] then []
  else (cs.foldr (fun c acc =>
    if c = ',' then [] :: acc
    else match acc with
      | part :: rest => (c :: part) :: rest
      | [] => [[c]]) [[]]).map trimBlanks

/-- A command with two numeric operands. -/
def parsePair (mk : Nat → Nat → SourceCmd) : List (List Char) → Option SourceCmd
  | [x, y] =>
    match parseNumber x, parseNumber y with
    | some a, some b => some (mk a b)
    | _, _ => none
  | _ => none

/-- A command with no operand. -/
def parseBare (c : SourceCmd) : List (List Char) → Option SourceCmd
  | [] => some c
  | _ => none

/-- A command with one operand, read by `parse`. -/
def parseSingle (parse : List Char → Option Nat) (mk : Nat → SourceCmd) : List (List Char) → Option SourceCmd
  | [x] => (parse x).map mk
  | _ => none

/-- A mnemonic in upper case with its operands (R69, R70). -/
def parseCommand (mnemonic : List Char) (operands : List (List Char)) : Option SourceCmd :=
  match mnemonic with
  | ['N', 'O', 'P'] => parseBare .nop operands
  | ['B', 'U', 'I', 'L', 'D'] => parseBare .build operands
  | ['S', 'E', 'A', 'L'] => parseBare .sealPkt operands
  | ['C', 'S', 'U', 'M'] => parsePair .csum operands
  | ['L', 'D', 'B'] => parseSingle parseNumber .ldb operands
  | ['S', 'T', 'B'] => parsePair .stb operands
  | ['R', 'D', 'R', 'E', 'G'] => parseSingle parseRegister .rdreg operands
  | ['M', 'K', 'P', 'K', 'T'] => parseBare .mkpkt operands
  | ['V', 'E', 'R', 'I', 'F', 'Y'] => parsePair .verify operands
  | ['R', 'D', 'S', 'E', 'Q'] => parseBare .rdseq operands
  | _ => none

/-- The words of one line of text (R69): `;` opens a comment, a line with no command has no words, and a line that is no
command or has an operand outside its range is an error (`none`). -/
def assembleLine (line : List Char) : Option (List Word) :=
  match trimBlanks (line.takeWhile (· ≠ ';')) with
  | [] => some []
  | cs =>
    match parseCommand (cs.takeWhile fun c => !isBlank c) (splitOperands (cs.dropWhile fun c => !isBlank c)) with
    | some c => assemble c
    | none => none

/-- The words of a program, one command a line (R69). -/
def assembleLines : List (List Char) → Option (List Word)
  | [] => some []
  | line :: rest =>
    match assembleLine line, assembleLines rest with
    | some ws, some more => some (ws ++ more)
    | _, _ => none

end Sys2Proof.Machine
end

