-- ==== Sys2Proof/Safety.lean ====
section
/-! DEFINITION. The terms in which the statements speak of runs: a run and its end (00_scope.md R8), and the invariants of
the block. -/

namespace Sys2Proof.Machine

/-- A run has gone wrong exactly when `STATUS.ERR` is not 0 at its end (00_scope.md R8). -/
abbrev State.goneWrong (s : State) : Prop := s.err ≠ 0

/-- `Runs s ws t`: issuing the words `ws` from `s`, one step a word, ends in `t` (R8). -/
def Runs (s : State) (ws : List Word) (t : State) : Prop :=
  s.cmds = ws ∧ Host.Core.run Sys2Proof.core ws.length s = .next t

/-- The written bytes of `MEM` are in canonical form and inside `MEM`, whose size is legal (10_state.md R21, 00_scope.md
R10). -/
structure State.MemoryOk (s : State) : Prop where
  legal : s.cfg.Legal
  sorted : s.mem.wf
  inside : ∀ cell ∈ s.mem, cell.1 < s.cfg.memBytes

/-- The word `w` raises the latched fault of code `c` in a machine of `n` memory bytes: the causes of 60_exceptions.md
R140. -/
def CausesFault (n : Nat) (w : Word) (c : FaultCode) : Prop :=
  match decode w with
  | .error _ => c = .illegal
  | .ok (.rdreg reg) => 5 < reg.toNat ∧ c = .regnum
  | .ok (.csum base len) => n < base.toNat + len.toNat ∧ c = .range
  | .ok (.ldb addr) => n ≤ addr.toNat ∧ c = .range
  | .ok (.stb addr _) => n ≤ addr.toNat ∧ c = .range
  | .ok _ => False

/-- The fault registers tell the truth: no fault and `FCMD = 0`, or `STATUS.ERR` is the code of a fault that the word in
`FCMD` causes (60_exceptions.md R140, R142, R146). -/
def State.FaultRecordOk (s : State) : Prop :=
  (s.err = 0 ∧ s.fcmd = 0) ∨ ∃ c, CausesFault s.cfg.memBytes s.fcmd c ∧ s.err = c.bits

end Sys2Proof.Machine
end

