-- ==== Sys2Proof/Certificates/Slice0/Obligations.lean ====
section
/-! DEFINITION. The statements for the provers, from the numbered rules of spec/. -/

open Sys2Proof Sys2Proof.Machine

/-! Encoding. -/

/-- 30_encoding.md R72: the worked encodings decode to the commands they stand for, the illegal ones to none. -/
def Obligations.WorkedEncodingsDecode : Prop :=
  decode 0x00000000 = .ok .nop ∧ decode 0x01000000 = .ok .build ∧ decode 0x02000000 = .ok .sealPkt ∧
  decode 0x03000040 = .ok (.csum 0 64) ∧ decode 0x03040008 = .ok (.csum 0x40 8) ∧
  decode 0x03040007 = .ok (.csum 0x40 7) ∧ decode 0x03FFFFFF = .ok (.csum 0xFFF 0xFFF) ∧
  decode 0x04002000 = .ok (.ldb 2) ∧ decode 0x0403F000 = .ok (.ldb 63) ∧
  decode 0x050400F2 = .ok (.stb 0x40 0xF2) ∧ decode 0x050080AA = .ok (.stb 8 0xAA) ∧
  decode 0x06000001 = .ok (.rdreg 1) ∧ decode 0x06000000 = .ok (.rdreg 0) ∧ decode 0x06000006 = .ok (.rdreg 6) ∧
  decode 0x07000000 = .error (.unassignedOp 7) ∧ decode 0x01000001 = .error (.noOperandZero 1) ∧
  decode 0x04002001 = .error .ldbZero ∧ decode 0x05040100 = .error .stbZero ∧ decode 0x06000010 = .error .rdregZero

/-- 30_encoding.md R61, R63, R64: decoding an encoded command gives it back, at every value of every operand. -/
def Obligations.DecodeOfEncode : Prop :=
  ∀ i : Instr, decode (encode i) = .ok i

/-- 30_encoding.md R61, R64: every command word is the encoding of the command it decodes to; no bit is ignored. -/
def Obligations.EncodeOfDecode : Prop :=
  ∀ (w : Word) (i : Instr), decode w = .ok i → encode i = w

/-- 30_encoding.md R64: a word is the command of a row exactly when `cmd & mask = match`, and at most one row matches. -/
def Obligations.DecodeByMaskAndMatch : Prop :=
  ∀ w : Word,
    (decode w = .ok .nop ↔ w &&& 0xFFFFFFFF = 0x00000000) ∧
    (decode w = .ok .build ↔ w &&& 0xFFFFFFFF = 0x01000000) ∧
    (decode w = .ok .sealPkt ↔ w &&& 0xFFFFFFFF = 0x02000000) ∧
    ((∃ base len, decode w = .ok (.csum base len)) ↔ w &&& 0xFF000000 = 0x03000000) ∧
    ((∃ addr, decode w = .ok (.ldb addr)) ↔ w &&& 0xFF000FFF = 0x04000000) ∧
    ((∃ addr data, decode w = .ok (.stb addr data)) ↔ w &&& 0xFF000F00 = 0x05000000) ∧
    ((∃ reg, decode w = .ok (.rdreg reg)) ↔ w &&& 0xFFFFFFF0 = 0x06000000)

/-- 30_encoding.md R63: each operand is its field of the word taken as it stands, as an unsigned number. -/
def Obligations.OperandsAreFields : Prop :=
  ∀ w : Word,
    (∀ base len, decode w = .ok (.csum base len) →
      base.toNat = w.toNat / 4096 % 4096 ∧ len.toNat = w.toNat % 4096) ∧
    (∀ addr, decode w = .ok (.ldb addr) → addr.toNat = w.toNat / 4096 % 4096) ∧
    (∀ addr data, decode w = .ok (.stb addr data) →
      addr.toNat = w.toNat / 4096 % 4096 ∧ data.toNat = w.toNat % 256) ∧
    (∀ reg, decode w = .ok (.rdreg reg) → reg.toNat = w.toNat % 16)

/-- 30_encoding.md R66: the illegal words are exactly its five cases; each raises `E_ILLEGAL` and changes nothing else;
`CSUM` words all decode and raise `E_RANGE` where their range is not admitted; `RDREG` of 6 to 15 raises `E_REGNUM`. -/
def Obligations.IllegalWordsExactly : Prop :=
  ∀ w : Word,
    ((∃ why, decode w = .error why) ↔
      7 ≤ w.toNat / 2 ^ 24 ∨
      (w.toNat / 2 ^ 24 ≤ 2 ∧ w.toNat % 2 ^ 24 ≠ 0) ∨
      (w.toNat / 2 ^ 24 = 4 ∧ w.toNat % 4096 ≠ 0) ∨
      (w.toNat / 2 ^ 24 = 5 ∧ w.toNat / 256 % 16 ≠ 0) ∨
      (w.toNat / 2 ^ 24 = 6 ∧ w.toNat / 16 % 2 ^ 20 ≠ 0)) ∧
    (∀ (s : State) (ws : List Word) (why : IllegalWord), s.err = 0 → s.cmds = w :: ws → decode w = .error why →
      step s = .next { s with cmds := ws, err := 1, fcmd := w, rsp := some ⟨0, 1⟩ }) ∧
    (∀ (s : State) (ws : List Word), s.err = 0 → s.cmds = w :: ws → w.toNat / 2 ^ 24 = 3 →
      s.cfg.memBytes < w.toNat / 4096 % 4096 + w.toNat % 4096 →
      step s = .next { s with cmds := ws, err := 3, fcmd := w, rsp := some ⟨0, 3⟩ }) ∧
    (∀ (s : State) (ws : List Word), s.err = 0 → s.cmds = w :: ws → w.toNat / 16 = 0x600000 → 6 ≤ w.toNat % 16 →
      step s = .next { s with cmds := ws, err := 2, fcmd := w, rsp := some ⟨0, 2⟩ })

/-! The step. -/

/-- 30_encoding.md R65: where the next word decodes to a command, the step is that command's meaning in the state with the
word taken. -/
def Obligations.StepRunsDecodedCommand : Prop :=
  ∀ (s : State) (w : Word) (ws : List Word) (i : Instr),
    s.cmds = w :: ws → decode w = .ok i → step s = exec i { s with cmds := ws }

/-- 00_scope.md R4, R5, 30_encoding.md R71: every state has a next state; a step takes exactly the oldest word; it answers
exactly when a word was issued. The command stream and the response stand in the model's own fields (entries 1, 2). -/
def Obligations.StepTotalOneResponsePerWord : Prop :=
  ∀ s : State, ∃ t, step s = .next t ∧ t.cmds = s.cmds.tail ∧ (t.rsp.isSome ↔ s.cmds ≠ [])

/-- 00_scope.md R4, 10_state.md R33: a step is the spec's function of the configuration, the block's seven items and the
word: it gives the block's next state and the response, which nothing else enters (the last response least of all), and
beside the block it keeps the configuration and the words still to come. That they travel in one state is the model's form
(entries 1 to 3). -/
def Obligations.StepIsBlockStep : Prop :=
  ∀ (s : State) (w : Word) (ws : List Word), s.cmds = w :: ws → ∃ t, step s = .next t ∧
    (t.toBlock, t.rsp) = ((s.toBlock.step s.cfg w).1, some (s.toBlock.step s.cfg w).2) ∧ t.cfg = s.cfg ∧ t.cmds = ws

/-- 00_scope.md R4, R8: a run over a list of words is the block's step function over the list, under one configuration. -/
def Obligations.RunIsBlockSteps : Prop :=
  ∀ (s : State) (ws : List Word), s.cmds = ws → ∃ t, Runs s ws t ∧
    t.toBlock = ws.foldl (fun b w => (b.step s.cfg w).1) s.toBlock ∧ t.cfg = s.cfg ∧ t.cmds = []

/-- 60_exceptions.md R152: with no word issued the engine keeps its state (the response output, entry 2, shows no
answer). -/
def Obligations.NoWordKeepsState : Prop :=
  ∀ s : State, s.cmds = [] → step s = .next { s with rsp := none }

/-- 60_exceptions.md R143: while `STATUS.ERR ≠ 0` every issued word is answered (0, 15) with no state change, and so is
every command. -/
def Obligations.HaltedRefusesEveryWord : Prop :=
  (∀ (s : State) (w : Word) (ws : List Word), s.err ≠ 0 → s.cmds = w :: ws →
    step s = .next { s with cmds := ws, rsp := some ⟨0, 15⟩ }) ∧
  (∀ (i : Instr) (s : State), s.err ≠ 0 → exec i s = .next { s with rsp := some ⟨0, 15⟩ })

/-- 60_exceptions.md R142, R143, R144: however many words follow a fault, the state stays as the fault left it. -/
def Obligations.HaltedForever : Prop :=
  ∀ (s : State) (w : Word) (ws : List Word), s.err ≠ 0 → s.cmds = w :: ws →
    Runs s (w :: ws) { s with cmds := [], rsp := some ⟨0, 15⟩ }

/-! The commands. -/

/-- 42_access.md R120. -/
def Obligations.NopDoesNothing : Prop :=
  encode .nop = 0x00000000 ∧
  (∀ s : State, s.err = 0 → exec .nop s = .next { s with rsp := some ⟨0, 0⟩ }) ∧
  (∀ s : State, s.err ≠ 0 → exec .nop s = .next { s with rsp := some ⟨0, 15⟩ })

/-- 41_packet_builder.md R102: `BUILD` runs in every state that is not halted; it writes the 64 bytes of the packet, byte
order included, advances `SEQ`, answers the old `SEQ`, and changes nothing else. -/
def Obligations.BuildWritesPacket : Prop :=
  encode .build = 0x01000000 ∧
  ∀ s : State, s.err = 0 → ∃ t, exec .build s = .next t ∧
    t = { s with mem := t.mem, seq := s.seq + 1, rsp := some ⟨s.seq.setWidth 32, 0⟩ } ∧
    t.bytes 0 64 =
      [0x08, 0x00, 0x00, 0x00, s.cfg.ident.extractLsb' 8 8, s.cfg.ident.extractLsb' 0 8,
        s.seq.extractLsb' 8 8, s.seq.extractLsb' 0 8] ++ List.replicate 56 0x00 ∧
    ∀ a, 64 ≤ a → t.byteAt a = s.byteAt a

/-- 41_packet_builder.md R104: `SEAL` runs in every state that is not halted; with `raw` the sum of the packet buffer with
its checksum field zero and `c` its folded complement it stores `c` big-endian at 2 and 3, writes `ACC`, `RESULT` and `Z`,
answers `c`, and changes nothing else; `ACC ≤ 0x001FFFE0`. -/
def Obligations.SealStoresChecksum : Prop :=
  encode .sealPkt = 0x02000000 ∧
  ∀ (s : State) (raw : Word) (c : Half), s.err = 0 →
    raw = wordsum (((s.bytes 0 64).set 2 0).set 3 0) → c = ~~~(fold raw) →
    raw.toNat ≤ 0x001FFFE0 ∧
    ∃ t, exec .sealPkt s = .next t ∧
      t = { s with mem := t.mem, acc := raw, result := c, z := decide (c = 0), rsp := some ⟨c.setWidth 32, 0⟩ } ∧
      t.byteAt 2 = c.extractLsb' 8 8 ∧ t.byteAt 3 = c.extractLsb' 0 8 ∧
      ∀ a, a ≠ 2 → a ≠ 3 → t.byteAt a = s.byteAt a

/-- 40_checksum.md R87: an admitted range is summed, `ACC`, `RESULT` and `Z` are written and the checksum answered, and
nothing else changes, `MEM` not either; a range that is not admitted raises `E_RANGE` with nothing else changed. -/
def Obligations.CsumReturnsChecksum : Prop :=
  (∀ base len, (encode (.csum base len)).toNat = 0x03000000 + base.toNat * 4096 + len.toNat) ∧
  (∀ (s : State) (base len : Addr) (raw : Word) (c : Half), s.err = 0 → base.toNat + len.toNat ≤ s.cfg.memBytes →
    raw = wordsum ((List.range len.toNat).map fun j => s.byteAt (base.toNat + j)) → c = ~~~(fold raw) →
    exec (.csum base len) s =
      .next { s with acc := raw, result := c, z := decide (c = 0), rsp := some ⟨c.setWidth 32, 0⟩ }) ∧
  (∀ (s : State) (base len : Addr), s.err = 0 → s.cfg.memBytes < base.toNat + len.toNat →
    exec (.csum base len) s =
      .next { s with err := 3, fcmd := encode (.csum base len), rsp := some ⟨0, 3⟩ })

/-- 40_checksum.md R87, corner case: an admitted empty range, `base = MEM_BYTES` included, gives `ACC = 0`, `RESULT`
0xFFFF and `Z = 0`. -/
def Obligations.CsumOfEmptyRange : Prop :=
  ∀ (s : State) (base : Addr), s.err = 0 → base.toNat ≤ s.cfg.memBytes →
    exec (.csum base 0) s = .next { s with acc := 0, result := 0xFFFF, z := false, rsp := some ⟨0x0000FFFF, 0⟩ }

/-- 42_access.md R121: an admitted byte is answered zero-extended and no state changes; otherwise `E_RANGE`. -/
def Obligations.LdbReturnsByte : Prop :=
  (∀ addr, (encode (.ldb addr)).toNat = 0x04000000 + addr.toNat * 4096) ∧
  (∀ (s : State) (addr : Addr), s.err = 0 → addr.toNat < s.cfg.memBytes →
    exec (.ldb addr) s = .next { s with rsp := some ⟨(s.byteAt addr.toNat).setWidth 32, 0⟩ }) ∧
  (∀ (s : State) (addr : Addr), s.err = 0 → s.cfg.memBytes ≤ addr.toNat →
    exec (.ldb addr) s = .next { s with err := 3, fcmd := encode (.ldb addr), rsp := some ⟨0, 3⟩ })

/-- 42_access.md R122: an admitted byte is written, 0 answered, and nothing else changes; a store of the value the byte
already holds changes no byte; otherwise `E_RANGE` with `MEM` unchanged. -/
def Obligations.StbWritesByte : Prop :=
  (∀ addr data, (encode (.stb addr data)).toNat = 0x05000000 + addr.toNat * 4096 + data.toNat) ∧
  (∀ (s : State) (addr : Addr) (data : Byte), s.err = 0 → addr.toNat < s.cfg.memBytes →
    ∃ t, exec (.stb addr data) s = .next t ∧
      t = { s with mem := t.mem, rsp := some ⟨0, 0⟩ } ∧
      t.byteAt addr.toNat = data ∧
      (∀ a, a ≠ addr.toNat → t.byteAt a = s.byteAt a) ∧
      (s.byteAt addr.toNat = data → ∀ a, t.byteAt a = s.byteAt a)) ∧
  (∀ (s : State) (addr : Addr) (data : Byte), s.err = 0 → s.cfg.memBytes ≤ addr.toNat →
    exec (.stb addr data) s = .next { s with err := 3, fcmd := encode (.stb addr data), rsp := some ⟨0, 3⟩ })

/-- 42_access.md R123, 10_state.md R30: the six registers' read values; no state changes; numbers 6 to 15 raise
`E_REGNUM`; where the fault registers are consistent, `STATUS` reads 0 or 2 and `FCMD` reads 0. -/
def Obligations.RdregReturnsRegister : Prop :=
  (∀ reg, (encode (.rdreg reg)).toNat = 0x06000000 + reg.toNat) ∧
  (∀ s : State, s.err = 0 →
    exec (.rdreg 0) s = .next { s with rsp := some ⟨if s.z then 2 else 0, 0⟩ } ∧
    exec (.rdreg 1) s = .next { s with rsp := some ⟨s.seq.setWidth 32, 0⟩ } ∧
    exec (.rdreg 2) s = .next { s with rsp := some ⟨s.cfg.ident.setWidth 32, 0⟩ } ∧
    exec (.rdreg 3) s = .next { s with rsp := some ⟨s.acc, 0⟩ } ∧
    exec (.rdreg 4) s = .next { s with rsp := some ⟨s.result.setWidth 32, 0⟩ } ∧
    exec (.rdreg 5) s = .next { s with rsp := some ⟨s.fcmd, 0⟩ }) ∧
  (∀ s : State, s.err = 0 → s.FaultRecordOk → exec (.rdreg 5) s = .next { s with rsp := some ⟨0, 0⟩ }) ∧
  (∀ (s : State) (reg : RegNum), s.err = 0 → 5 < reg.toNat →
    exec (.rdreg reg) s = .next { s with err := 2, fcmd := encode (.rdreg reg), rsp := some ⟨0, 2⟩ })

/-! Frames. -/

/-- 10_state.md R34, the writes: a command that does not fault writes only its write set and the response. -/
def Obligations.WriteSets : Prop :=
  ∀ (i : Instr) (s t : State), s.err = 0 → exec i s = .next t → t.err = 0 →
    match i with
    | .nop | .ldb _ | .rdreg _ => t = { s with rsp := t.rsp }
    | .build =>
      t = { s with mem := t.mem, seq := t.seq, rsp := t.rsp } ∧ ∀ a, 64 ≤ a → t.byteAt a = s.byteAt a
    | .sealPkt =>
      t = { s with mem := t.mem, acc := t.acc, result := t.result, z := t.z, rsp := t.rsp } ∧
      ∀ a, a ≠ 2 → a ≠ 3 → t.byteAt a = s.byteAt a
    | .csum _ _ => t = { s with acc := t.acc, result := t.result, z := t.z, rsp := t.rsp }
    | .stb addr _ =>
      t = { s with mem := t.mem, rsp := t.rsp } ∧ ∀ a, a ≠ addr.toNat → t.byteAt a = s.byteAt a

/-- 10_state.md R34, the reads: of two states that agree on a command's read set (and on the configuration), the command
gives the same response and writes the same values. -/
def Obligations.ReadSets : Prop :=
  ∀ (i : Instr) (s t s' t' : State), s.err = 0 → t.err = 0 → s.cfg = t.cfg →
    exec i s = .next s' → exec i t = .next t' →
    match i with
    | .nop => s'.rsp = t'.rsp
    | .build => s.seq = t.seq →
      s'.rsp = t'.rsp ∧ s'.seq = t'.seq ∧ ∀ a, a < 64 → s'.byteAt a = t'.byteAt a
    | .sealPkt => (∀ a, a < 64 → a ≠ 2 → a ≠ 3 → s.byteAt a = t.byteAt a) →
      s'.rsp = t'.rsp ∧ s'.acc = t'.acc ∧ s'.result = t'.result ∧ s'.z = t'.z ∧
      s'.byteAt 2 = t'.byteAt 2 ∧ s'.byteAt 3 = t'.byteAt 3
    | .csum base len => (∀ a, base.toNat ≤ a → a < base.toNat + len.toNat → s.byteAt a = t.byteAt a) →
      s'.rsp = t'.rsp ∧ (s'.err = 0 → s'.acc = t'.acc ∧ s'.result = t'.result ∧ s'.z = t'.z)
    | .ldb addr => s.byteAt addr.toNat = t.byteAt addr.toNat → s'.rsp = t'.rsp
    | .stb addr _ => s'.rsp = t'.rsp ∧ (s'.err = 0 → s'.byteAt addr.toNat = t'.byteAt addr.toNat)
    | .rdreg reg => (∀ r, regOfNum reg = some r → s.readReg s.cfg r = t.readReg t.cfg r) → s'.rsp = t'.rsp

/-! Faults. -/

/-- 20_memory.md R48: `LDB`, `STB` and `CSUM` raise `E_RANGE` exactly when their access is not admitted; `BUILD` and
`SEAL` never fault. -/
def Obligations.RangeFaultExactly : Prop :=
  ∀ s : State, s.err = 0 →
    (∀ addr t, exec (.ldb addr) s = .next t → (t.err = 3 ↔ s.cfg.memBytes ≤ addr.toNat)) ∧
    (∀ addr data t, exec (.stb addr data) s = .next t → (t.err = 3 ↔ s.cfg.memBytes ≤ addr.toNat)) ∧
    (∀ base len t, exec (.csum base len) s = .next t → (t.err = 3 ↔ s.cfg.memBytes < base.toNat + len.toNat)) ∧
    (∀ t, exec .build s = .next t → t.err = 0) ∧
    (∀ t, exec .sealPkt s = .next t → t.err = 0)

/-- 60_exceptions.md R142: a word that faults writes its code 1, 2 or 3 to `STATUS.ERR` and itself to `FCMD`, answers
(0, code), changes nothing else, and the engine is halted; from then on no step clears or replaces `STATUS.ERR` or
`FCMD`. -/
def Obligations.FaultsArePrecise : Prop :=
  (∀ (s t : State) (w : Word) (ws : List Word), s.err = 0 → s.cmds = w :: ws → step s = .next t → t.err ≠ 0 →
    (t.err = 1 ∨ t.err = 2 ∨ t.err = 3) ∧
    t = { s with cmds := ws, err := t.err, fcmd := w, rsp := some ⟨0, t.err⟩ } ∧ t.halted = true) ∧
  (∀ s t : State, s.err ≠ 0 → step s = .next t → t.err = s.err ∧ t.fcmd = s.fcmd)

/-- 60_exceptions.md R140: after a word issued in a state that is not halted, `STATUS.ERR` is a fault's code exactly when the
word causes that fault, and 0 exactly when it causes none; a fault records the word in `FCMD`; `E_HALTED` answers any word
issued in a halted state and is never latched; `NOP`, `BUILD` and `SEAL` cause no fault. -/
def Obligations.FaultCodesAndCauses : Prop :=
  (∀ (s t : State) (w : Word) (ws : List Word), s.err = 0 → s.cmds = w :: ws → step s = .next t →
    (∀ c : FaultCode, t.err = c.bits ↔ CausesFault s.cfg.memBytes w c) ∧
    (t.err = 0 ↔ ∀ c : FaultCode, ¬ CausesFault s.cfg.memBytes w c) ∧
    (t.err ≠ 0 → t.fcmd = w) ∧ t.err ≠ 15) ∧
  (∀ (s t : State) (w : Word) (ws : List Word), s.err ≠ 0 → s.cmds = w :: ws → step s = .next t →
    t.rsp = some ⟨0, 15⟩ ∧ t.err = s.err) ∧
  (∀ (n : Nat) (c : FaultCode), ¬ CausesFault n 0x00000000 c ∧ ¬ CausesFault n 0x01000000 c ∧
    ¬ CausesFault n 0x02000000 c)

/-- 60_exceptions.md R141: 0x04FFF001 (`LDB` opcode, an address out of range, bit 0 set) raises `E_ILLEGAL`, and in a
halted state the word is refused undecoded. -/
def Obligations.DecodeCheckedBeforeRange : Prop :=
  ∀ (s : State) (ws : List Word), s.cmds = 0x04FFF001 :: ws →
    (s.err = 0 → step s = .next { s with cmds := ws, err := 1, fcmd := 0x04FFF001, rsp := some ⟨0, 1⟩ }) ∧
    (s.err ≠ 0 → step s = .next { s with cmds := ws, rsp := some ⟨0, 15⟩ })

/-! Registers. -/

/-- 10_state.md R26: the bits of `STATUS`; `Z` after `CSUM` and `SEAL`; no other command changes `Z`; `ERR` changes only by
a fault. -/
def Obligations.StatusRegister : Prop :=
  (∀ s : State,
    ((s.statusView.getLsbD 0 = true) ↔ s.err ≠ 0) ∧ s.statusView.getLsbD 1 = s.z ∧
    s.statusView.extractLsb' 2 2 = 0 ∧ s.statusView.extractLsb' 4 4 = s.err ∧ s.statusView.extractLsb' 8 24 = 0) ∧
  (∀ (i : Instr) (s t : State), s.err = 0 → exec i s = .next t → t.err = 0 →
    match i with
    | .csum _ _ | .sealPkt => t.z = true ↔ t.result = 0x0000
    | _ => t.z = s.z) ∧
  (∀ s t : State, step s = .next t → t.err ≠ s.err →
    s.err = 0 ∧ ∃ w ws c, s.cmds = w :: ws ∧ CausesFault s.cfg.memBytes w c ∧ t.err = c.bits)

/-- 41_packet_builder.md R103, 10_state.md R22: a step adds 1 to `SEQ`, modulo 65536, exactly when it executes the word
`BUILD`; nothing else changes `SEQ`. -/
def Obligations.SeqAdvancesOnBuildOnly : Prop :=
  ∀ s t : State, step s = .next t →
    t.seq = if s.err = 0 ∧ s.cmds.head? = some 0x01000000 then BitVec.ofNat 16 ((s.seq.toNat + 1) % 65536) else s.seq

/-- 10_state.md R22: over a run that has not gone wrong `SEQ` has advanced by the number of `BUILD` words, modulo 65536:
no gap, no duplication. -/
def Obligations.SeqCountsBuilds : Prop :=
  ∀ (s t : State) (ws : List Word), Runs s ws t → ¬ t.goneWrong →
    t.seq.toNat = (s.seq.toNat + ws.count 0x01000000) % 65536

/-- 00_scope.md R10, 10_state.md R23: no step changes the configuration (which stands in the state by the model's choice,
entry 3). -/
def Obligations.ConfigurationNeverChanges : Prop :=
  ∀ s t : State, step s = .next t → t.cfg = s.cfg

/-! Reset and invariants. -/

/-- 10_state.md R31: the registers after reset, and bytes of `MEM` that hold the unspecified reset contents. The
configuration and the free bytes of `State.reset` are the model's form of what the spec leaves open (entries 3, 4). -/
def Obligations.ResetValues : Prop :=
  State.reset.seq = 0 ∧ State.reset.acc = 0 ∧ State.reset.result = 0 ∧ State.reset.z = false ∧
  State.reset.err = 0 ∧ State.reset.fcmd = 0 ∧ State.reset.cfg.ident = Config.identValue ∧
  ∀ a, State.reset.byteAt a = Config.resetByte a

/-- 70_reset_and_hazards.md R160, R161: the reset port leaves the reset values and the configuration, from any state, the
halted ones too; every byte of `MEM` then holds what the fresh unspecified input gives it (entry 5). -/
def Obligations.ResetPort : Prop :=
  ∀ (s : State) (contents : Memory),
    (s.assertReset contents).seq = 0 ∧ (s.assertReset contents).acc = 0 ∧ (s.assertReset contents).result = 0 ∧
    (s.assertReset contents).z = false ∧ (s.assertReset contents).err = 0 ∧ (s.assertReset contents).halted = false ∧
    (s.assertReset contents).fcmd = 0 ∧ (s.assertReset contents).cfg = s.cfg ∧ (s.assertReset contents).rsp = none ∧
    ∀ a v, contents.get? a = some v → (s.assertReset contents).byteAt a = v

/-- The invariants hold after reset (the sizes by the spec's default `MEM_BYTES`, entry 3), and after the reset port with any
contents of `MEM` in canonical form. -/
def Obligations.InvariantsAtReset : Prop :=
  State.reset.MemoryOk ∧ State.reset.FaultRecordOk ∧
  ∀ (s : State) (contents : Memory), s.cfg.Legal → contents.wf → (∀ cell ∈ contents, cell.1 < s.cfg.memBytes) →
    (s.assertReset contents).MemoryOk ∧ (s.assertReset contents).FaultRecordOk

/-- 10_state.md R21, 20_memory.md R40: every step keeps the written bytes in canonical form and inside `MEM`. -/
def Obligations.StepKeepsMemoryOk : Prop :=
  ∀ s t : State, s.MemoryOk → step s = .next t → t.MemoryOk

/-- 60_exceptions.md R140, R142, R146: every step keeps `STATUS.ERR` and `FCMD` consistent: no fault, or the code of a fault
that the recorded word causes. -/
def Obligations.StepKeepsFaultRecordOk : Prop :=
  ∀ s t : State, s.FaultRecordOk → step s = .next t → t.FaultRecordOk

/-! Memory. -/

/-- 20_memory.md R55, R56: a two-byte `MemRead` is big-endian; a `MemRead` of the address and size of a `MemWrite` returns
the value; bytes are placed big-endian; no other byte changes. -/
def Obligations.MemReadAfterMemWrite : Prop :=
  ∀ (s : Block) (addr : Nat),
    (s.memRead2 addr).toNat = 256 * (s.memRead1 addr).toNat + (s.memRead1 (addr + 1)).toNat ∧
    (∀ v : Byte, (s.memWrite1 addr v).memRead1 addr = v ∧
      ∀ a, a ≠ addr → (s.memWrite1 addr v).byteAt a = s.byteAt a) ∧
    (∀ v : Half, (s.memWrite2 addr v).memRead2 addr = v ∧
      (s.memWrite2 addr v).byteAt addr = v.extractLsb' 8 8 ∧
      (s.memWrite2 addr v).byteAt (addr + 1) = v.extractLsb' 0 8 ∧
      ∀ a, a ≠ addr → a ≠ addr + 1 → (s.memWrite2 addr v).byteAt a = s.byteAt a)

/-- 20_memory.md R50, 10_state.md R31: over any run, a byte that none of its words writes keeps its value, the unspecified
reset value included. -/
def Obligations.UnwrittenByteStable : Prop :=
  ∀ (s t : State) (ws : List Word) (a : Nat), Runs s ws t →
    (∀ w ∈ ws, match decode w with
      | .ok .build => 64 ≤ a
      | .ok .sealPkt => a ≠ 2 ∧ a ≠ 3
      | .ok (.stb addr _) => addr.toNat ≠ a
      | _ => True) →
    t.byteAt a = s.byteAt a

/-! The checksum functions. -/

/-- 40_checksum.md R80, R81, R82: for every buffer a command can name, `wordsum` is the exact sum of the big-endian words,
an odd last byte a high byte; it is at most 0x07FFF701, which 4095 bytes of 0xFF reach. -/
def Obligations.WordsumIsExactSum : Prop :=
  (∀ B : List Byte, B.length ≤ 4095 →
    (wordsum B).toNat =
      ∑ j ∈ Finset.range ((B.length + 1) / 2), (256 * (B.getD (2 * j) 0).toNat + (B.getD (2 * j + 1) 0).toNat) ∧
    (wordsum B).toNat ≤ 0x07FFF701) ∧
  (wordsum (List.replicate 4095 0xFF)).toNat = 0x07FFF701

/-- 40_checksum.md R81: for odd `n`, `wordsum(B) = wordsum(B followed by one byte 0x00)`. -/
def Obligations.OddLengthPadsWithZero : Prop :=
  ∀ B : List Byte, B.length % 2 = 1 → wordsum B = wordsum (B ++ [0x00])

/-- 40_checksum.md R91: whole words can be reordered; the bytes of a word and the parity of an offset matter. -/
def Obligations.WordOrderIrrelevant : Prop :=
  (∀ ps qs : List (Byte × Byte), ps.Perm qs →
    wordsum (ps.flatMap fun p => [p.1, p.2]) = wordsum (qs.flatMap fun p => [p.1, p.2])) ∧
  (∃ a b : Byte, wordsum [a, b] ≠ wordsum [b, a]) ∧
  (∃ a b c d : Byte, wordsum [a, b, c, d] ≠ wordsum [b, c, d, a])

/-- 40_checksum.md R83, R84: from two passes on the loop has ended with no carry left, `fold` is its low half, and it equals
two unconditional passes; 0x0001FFFF needs both. -/
def Obligations.TwoPassesSuffice : Prop :=
  (∀ (acc : Word) (n : Nat), 2 ≤ n →
    carryPart (foldLoop n acc) = 0 ∧ (foldLoop n acc).extractLsb' 0 16 = fold acc) ∧
  (∀ (acc : Word) (s1 s2 : Nat), s1 = acc.toNat % 65536 + acc.toNat / 65536 → s2 = s1 % 65536 + s1 / 65536 % 2 →
    (fold acc).toNat = s2 % 65536) ∧
  (foldPass 0x0001FFFF = 0x00010000 ∧ carryPart 0x00010000 ≠ 0 ∧ foldPass 0x00010000 = 0x00000001)

/-- 40_checksum.md R92: the laws (a) to (d) of `fold`. -/
def Obligations.FoldLaws : Prop :=
  ∀ acc : Word,
    (fold acc).toNat % 65535 = acc.toNat % 65535 ∧
    (fold acc = 0 ↔ acc = 0) ∧
    (0 < acc.toNat → (fold acc).toNat = (acc.toNat - 1) % 65535 + 1) ∧
    (acc.toNat ≤ 0xFFFF → (fold acc).toNat = acc.toNat)

/-- 40_checksum.md R90: the table of small and extreme cases of `chk`. -/
def Obligations.ChkSmallCases : Prop :=
  (wordsum [] = 0x00000000 ∧ fold 0x00000000 = 0x0000 ∧ chk [] = 0xFFFF) ∧
  (wordsum [0x00, 0x00] = 0x00000000 ∧ chk [0x00, 0x00] = 0xFFFF) ∧
  (wordsum [0xFF, 0xFF] = 0x0000FFFF ∧ fold 0x0000FFFF = 0xFFFF ∧ chk [0xFF, 0xFF] = 0x0000) ∧
  (wordsum [0xAB] = 0x0000AB00 ∧ fold 0x0000AB00 = 0xAB00 ∧ chk [0xAB] = 0x54FF) ∧
  (wordsum [0xAB, 0xCD] = 0x0000ABCD ∧ fold 0x0000ABCD = 0xABCD ∧ chk [0xAB, 0xCD] = 0x5432) ∧
  (wordsum [0xAB, 0xCD, 0xEF] = 0x00019ACD ∧ fold 0x00019ACD = 0x9ACE ∧ chk [0xAB, 0xCD, 0xEF] = 0x6531) ∧
  (wordsum [0xFF, 0xFF, 0xFF, 0xFF, 0x00, 0x01] = 0x0001FFFF ∧ fold 0x0001FFFF = 0x0001 ∧
    chk [0xFF, 0xFF, 0xFF, 0xFF, 0x00, 0x01] = 0xFFFE) ∧
  (wordsum [0xFF, 0xFF, 0x00, 0x01] = 0x00010000 ∧ fold 0x00010000 = 0x0001 ∧
    chk [0xFF, 0xFF, 0x00, 0x01] = 0xFFFE)

/-- 40_checksum.md R88: the self-verification property. `B0` is `B` with the field at the even offset `k` zero, `c` its
checksum, `B1` is `B0` with `c` stored big-endian in the field. -/
def Obligations.SelfVerification : Prop :=
  ∀ (B B0 B1 : List Byte) (k : Nat) (c : Half),
    2 ≤ B.length → B.length ≤ 4095 → k % 2 = 0 → k + 1 < B.length →
    B0 = (B.set k 0x00).set (k + 1) 0x00 → c = chk B0 →
    B1 = (B0.set k (c.extractLsb' 8 8)).set (k + 1) (c.extractLsb' 0 8) →
    (wordsum B1).toNat = (wordsum B0).toNat + c.toNat ∧ fold (wordsum B1) = 0xFFFF ∧ chk B1 = 0x0000

/-- 40_checksum.md R89: which values, stored in the field, verify. -/
def Obligations.WhichStoredValuesVerify : Prop :=
  ∀ (B B0 B1 : List Byte) (k : Nat) (c v : Half),
    2 ≤ B.length → B.length ≤ 4095 → k % 2 = 0 → k + 1 < B.length →
    B0 = (B.set k 0x00).set (k + 1) 0x00 → c = chk B0 →
    B1 = (B0.set k (v.extractLsb' 8 8)).set (k + 1) (v.extractLsb' 0 8) →
    (chk B1 = 0x0000 ↔ v = c ∨ (c = 0x0000 ∧ v = 0xFFFF))

/-! Sequences of commands. -/

/-- 40_checksum.md R87, corner case: the same `CSUM` twice gives the same response and the same state. -/
def Obligations.CsumIdempotent : Prop :=
  ∀ (s t : State) (base len : Addr), s.err = 0 → base.toNat + len.toNat ≤ s.cfg.memBytes →
    exec (.csum base len) s = .next t → exec (.csum base len) t = .next t

/-- 41_packet_builder.md R107: a second `SEAL` with no write between leaves the same state and the same response; after a
store of a byte of the buffer, one `SEAL` computes the checksum from the new bytes, the old checksum not entering it, and
the packet verifies again. -/
def Obligations.SealIdempotent : Prop :=
  (∀ s t : State, s.err = 0 → s.mem.wf → exec .sealPkt s = .next t → exec .sealPkt t = .next t) ∧
  (∀ (s t u v : State) (addr : Addr) (data : Byte), s.err = 0 → addr.toNat < 64 → addr.toNat < s.cfg.memBytes →
    exec .sealPkt s = .next t → exec (.stb addr data) t = .next u → exec .sealPkt u = .next v →
    v.result = chk ((((s.bytes 0 64).set addr.toNat data).set 2 0x00).set 3 0x00) ∧ chk (v.bytes 0 64) = 0x0000)

/-- 41_packet_builder.md R105: the state and the responses of `MKPKT` (`BUILD` then `SEAL`) from any state that is not
halted, with the closed form of the checksum. -/
def Obligations.MkpktPacket : Prop :=
  ∀ (s : State) (a : Nat) (c : Half), s.err = 0 → a = 0x0800 + s.cfg.ident.toNat + s.seq.toNat →
    c = ~~~(fold (BitVec.ofNat 32 a)) →
    a ≤ 0x207FE ∧ c.toNat = 0xFFFF - ((a - 1) % 65535 + 1) ∧
    ∃ t u, exec .build s = .next t ∧ exec .sealPkt t = .next u ∧
      t.rsp = some ⟨s.seq.setWidth 32, 0⟩ ∧
      u = { s with mem := u.mem, seq := BitVec.ofNat 16 ((s.seq.toNat + 1) % 65536), acc := BitVec.ofNat 32 a,
                   result := c, z := decide (c = 0), rsp := some ⟨c.setWidth 32, 0⟩ } ∧
      u.bytes 0 64 =
        [0x08, 0x00, c.extractLsb' 8 8, c.extractLsb' 0 8, s.cfg.ident.extractLsb' 8 8, s.cfg.ident.extractLsb' 0 8,
          s.seq.extractLsb' 8 8, s.seq.extractLsb' 0 8] ++ List.replicate 56 0x00 ∧
      ∀ x, 64 ≤ x → u.byteAt x = s.byteAt x

/-- 41_packet_builder.md R106: after `SEAL`, and with the packet buffer unchanged since, `CSUM 0, 64` returns 0x0000 and
sets `Z`; its `ACC` is a non-zero multiple of 0xFFFF and folds to 0xFFFF. -/
def Obligations.SealedPacketVerifies : Prop :=
  ∀ s t u : State, s.err = 0 → exec .sealPkt s = .next t →
    u.err = 0 → 64 ≤ u.cfg.memBytes → u.bytes 0 64 = t.bytes 0 64 →
    ∃ v, exec (.csum 0 64) u = .next v ∧ v.rsp = some ⟨0, 0⟩ ∧ v.result = 0x0000 ∧ v.z = true ∧
      v.acc ≠ 0 ∧ v.acc.toNat % 0xFFFF = 0 ∧ fold v.acc = 0xFFFF

/-- 41_packet_builder.md R109: with `IDENT_VALUE = 0` and `SEQ = 0` the packet `MKPKT` makes is the document's reference
packet, with checksum 0xF7FF. -/
def Obligations.ReferencePacket : Prop :=
  wordsum (0x08 :: List.replicate 63 0x00) = 0x00000800 ∧ fold 0x00000800 = 0x0800 ∧
  chk (0x08 :: List.replicate 63 0x00) = 0xF7FF ∧
  ∀ s : State, s.err = 0 → s.cfg.ident = 0x0000 → s.seq = 0 →
    ∃ t u, exec .build s = .next t ∧ t.bytes 0 64 = 0x08 :: List.replicate 63 0x00 ∧ exec .sealPkt t = .next u ∧
      u.bytes 0 8 = [0x08, 0x00, 0xF7, 0xFF, 0x00, 0x00, 0x00, 0x00] ∧ u.rsp = some ⟨0x0000F7FF, 0⟩

/-! The assembler. -/

/-- 30_encoding.md R70: the pseudo-commands and their expansions. -/
def Obligations.PseudoCommandExpansions : Prop :=
  assemble .mkpkt = some [0x01000000, 0x02000000] ∧
  (∀ base len, assemble (.verify base len) = assemble (.csum base len)) ∧
  assemble .rdseq = some [0x06000001]

/-- 30_encoding.md R63, R69: a source command with every operand in its range has one word, which decodes to the command
with those operands; a command with an operand out of its range has no encoding. -/
def Obligations.AssembledWordsDecode : Prop :=
  (∀ base len, base < 4096 → len < 4096 → ∃ w b l, assemble (.csum base len) = some [w] ∧
    decode w = .ok (.csum b l) ∧ b.toNat = base ∧ l.toNat = len) ∧
  (∀ addr, addr < 4096 → ∃ w a, assemble (.ldb addr) = some [w] ∧ decode w = .ok (.ldb a) ∧ a.toNat = addr) ∧
  (∀ addr data, addr < 4096 → data < 256 → ∃ w a d, assemble (.stb addr data) = some [w] ∧
    decode w = .ok (.stb a d) ∧ a.toNat = addr ∧ d.toNat = data) ∧
  (∀ reg, reg < 16 → ∃ w r, assemble (.rdreg reg) = some [w] ∧ decode w = .ok (.rdreg r) ∧ r.toNat = reg) ∧
  (∀ base len, 4096 ≤ base ∨ 4096 ≤ len → assemble (.csum base len) = none) ∧
  (∀ addr, 4096 ≤ addr → assemble (.ldb addr) = none) ∧
  (∀ addr data, 4096 ≤ addr ∨ 256 ≤ data → assemble (.stb addr data) = none) ∧
  (∀ reg, 16 ≤ reg → assemble (.rdreg reg) = none)
end

