-- ==== Sys2Proof/Laws/Checksum.lean ====
section
/-! SUPPORT. The word sum and the fold in natural numbers. -/

namespace Sys2Proof.Machine

@[simp] theorem toNat_hiByte (v : Half) : (hiByte v).toNat = v.toNat / 256 := by
  have := v.isLt
  simp only [hiByte, BitVec.extractLsb'_toNat, Nat.shiftRight_eq_div_pow]
  omega

@[simp] theorem toNat_loByte (v : Half) : (loByte v).toNat = v.toNat % 256 := by simp [loByte, BitVec.extractLsb'_toNat]

@[simp] theorem toNat_joinBytes (hi lo : Byte) : (joinBytes hi lo).toNat = 256 * hi.toNat + lo.toNat := by
  have := lo.isLt
  simp only [joinBytes, BitVec.toNat_append]
  rw [← Nat.shiftLeft_add_eq_or_of_lt this, Nat.shiftLeft_eq]
  omega

theorem joinBytes_hi_lo (v : Half) : joinBytes (hiByte v) (loByte v) = v := by
  apply BitVec.eq_of_toNat_eq
  simp only [toNat_joinBytes, toNat_hiByte, toNat_loByte]
  omega

/-- The values of the big-endian words of a buffer, an odd last byte a high byte (40_checksum.md R80, R81). -/
def wordValues : List Byte → List Nat
  | b0 :: b1 :: rest => (256 * b0.toNat + b1.toNat) :: wordValues rest
  | [b] => [256 * b.toNat]
  | [] => []

theorem wordsumFrom_toNat (acc : Word) (bytes : List Byte) :
    (wordsumFrom acc bytes).toNat = (acc.toNat + (wordValues bytes).sum) % 2 ^ 32 := by
  induction acc, bytes using wordsumFrom.induct with
  | case1 acc b0 b1 rest ih =>
    have h0 := b0.isLt
    have h1 := b1.isLt
    rw [wordsumFrom, ih, wordValues, List.sum_cons, BitVec.toNat_add, BitVec.toNat_setWidth, toNat_joinBytes]
    omega
  | case2 acc b =>
    have h := b.isLt
    simp only [wordsumFrom, wordValues, List.sum_cons, List.sum_nil, BitVec.toNat_add, BitVec.toNat_setWidth,
      toNat_joinBytes, show (0x00 : Byte).toNat = 0 from rfl]
    omega
  | case3 acc =>
    have := acc.isLt
    simp only [wordsumFrom, wordValues, List.sum_nil]
    omega

/-- `wordsum` as a sum of word values, modulo 2^32. -/
theorem wordsum_toNat (bytes : List Byte) : (wordsum bytes).toNat = (wordValues bytes).sum % 2 ^ 32 := by
  simp [wordsum, wordsumFrom_toNat]

theorem length_wordValues (bytes : List Byte) : (wordValues bytes).length = (bytes.length + 1) / 2 := by
  induction bytes using wordValues.induct with
  | case1 b0 b1 rest ih => simp only [wordValues, List.length_cons, ih]; omega
  | case2 b => simp [wordValues]
  | case3 => simp [wordValues]

theorem wordValues_le (bytes : List Byte) : ∀ v ∈ wordValues bytes, v ≤ 0xFFFF := by
  induction bytes using wordValues.induct with
  | case1 b0 b1 rest ih =>
    have h0 := b0.isLt
    have h1 := b1.isLt
    simp only [wordValues, List.mem_cons, forall_eq_or_imp]
    exact ⟨by omega, ih⟩
  | case2 b => have h := b.isLt; simp only [wordValues, List.mem_singleton, forall_eq]; omega
  | case3 => simp [wordValues]

@[simp] theorem toNat_carryPart (s : Word) : (carryPart s).toNat = s.toNat / 65536 := by
  have := s.isLt
  simp only [carryPart, BitVec.extractLsb'_toNat, Nat.shiftRight_eq_div_pow]
  omega

/-- One pass replaces `65536 * h + l` by `h + l` (40_checksum.md R83, R92). -/
theorem toNat_foldPass (s : Word) : (foldPass s).toNat = s.toNat % 65536 + s.toNat / 65536 := by
  have := s.isLt
  simp only [foldPass, BitVec.toNat_add, BitVec.toNat_setWidth, toNat_carryPart, BitVec.extractLsb'_toNat,
    Nat.shiftRight_zero]
  omega

/-- The loop has ended where no carry remains. -/
theorem foldLoop_of_no_carry (n : Nat) {s : Word} (h : carryPart s = 0) : foldLoop n s = s := by
  cases n with
  | zero => rfl
  | succ n => simp [foldLoop, h]

theorem foldLoop_of_carry (n : Nat) {s : Word} (h : carryPart s ≠ 0) : foldLoop (n + 1) s = foldLoop n (foldPass s) :=
  if_neg h

end Sys2Proof.Machine
end

