-- ==== Sys2Proof/Laws/Decode.lean ====
section
/-! SUPPORT. Words and their rows: the opcode of a word that matches a row, and the row, opcode and operands of an encoded
command. -/

namespace Sys2Proof

theorem opField_and (w mask : Word) : opField (w &&& mask) = opField w &&& opField mask := BitVec.extractLsb'_and

/-- A row whose mask covers the opcode is matched only by words of its opcode (30_encoding.md R64). -/
theorem opField_of_matchesRow {w mask pattern : Word} (h : matchesRow w mask pattern = true)
    (hmask : opField mask = 0xFF) : opField w = opField pattern := by
  have hw : w &&& mask = pattern := by simpa [matchesRow] using h
  rw [← hw, opField_and, hmask]
  exact BitVec.and_allOnes.symm

theorem matchesRow_eq_false {w mask pattern : Word} (hmask : opField mask = 0xFF) (hne : opField w ≠ opField pattern) :
    matchesRow w mask pattern = false :=
  Bool.eq_false_iff.2 fun h => hne (opField_of_matchesRow h hmask)

/-- The opcode of a command (30_encoding.md R64). -/
def opcodeOf : Instr → Byte
  | .nop => 0x00
  | .build => 0x01
  | .sealPkt => 0x02
  | .csum _ _ => 0x03
  | .ldb _ => 0x04
  | .stb _ _ => 0x05
  | .rdreg _ => 0x06

/-- The mask of a command's row (30_encoding.md R64). -/
def maskOf : Instr → Word
  | .nop | .build | .sealPkt => 0xFFFFFFFF
  | .csum _ _ => 0xFF000000
  | .ldb _ => 0xFF000FFF
  | .stb _ _ => 0xFF000F00
  | .rdreg _ => 0xFFFFFFF0

/-- The match value of a command's row (30_encoding.md R64). -/
def patternOf : Instr → Word
  | .nop => 0x00000000
  | .build => 0x01000000
  | .sealPkt => 0x02000000
  | .csum _ _ => 0x03000000
  | .ldb _ => 0x04000000
  | .stb _ _ => 0x05000000
  | .rdreg _ => 0x06000000

theorem opField_encode (i : Instr) : opField (encode i) = opcodeOf i := by
  cases i <;> simp only [opField, encode, opcodeOf] <;> ext j hj <;>
    simp only [BitVec.getElem_extractLsb', BitVec.getLsbD_append] <;> interval_cases j <;> simp

/-- The word of a command lies in its own row (30_encoding.md R64). -/
theorem encode_and_mask (i : Instr) : encode i &&& maskOf i = patternOf i := by
  cases i <;> simp only [encode, maskOf, patternOf] <;> ext j hj <;>
    simp only [BitVec.getElem_and, BitVec.getElem_append] <;> interval_cases j <;> simp

theorem addrField_csum (base len : Addr) : addrField (encode (.csum base len)) = base := by
  simp only [addrField, encode]
  ext j hj
  simp only [BitVec.getElem_extractLsb', BitVec.getLsbD_append]
  interval_cases j <;> simp

theorem lenField_csum (base len : Addr) : lenField (encode (.csum base len)) = len := by
  simp only [lenField, encode]
  ext j hj
  simp only [BitVec.getElem_extractLsb', BitVec.getLsbD_append]
  interval_cases j <;> simp

theorem addrField_ldb (addr : Addr) : addrField (encode (.ldb addr)) = addr := by
  simp only [addrField, encode]
  ext j hj
  simp only [BitVec.getElem_extractLsb', BitVec.getLsbD_append]
  interval_cases j <;> simp

theorem addrField_stb (addr : Addr) (data : Byte) : addrField (encode (.stb addr data)) = addr := by
  simp only [addrField, encode]
  ext j hj
  simp only [BitVec.getElem_extractLsb', BitVec.getLsbD_append]
  interval_cases j <;> simp

theorem dataField_stb (addr : Addr) (data : Byte) : dataField (encode (.stb addr data)) = data := by
  simp only [dataField, encode]
  ext j hj
  simp only [BitVec.getElem_extractLsb', BitVec.getLsbD_append]
  interval_cases j <;> simp

theorem regField_rdreg (reg : RegNum) : regField (encode (.rdreg reg)) = reg := by
  simp only [regField, encode]
  ext j hj
  simp only [BitVec.getElem_extractLsb', BitVec.getLsbD_append]
  interval_cases j <;> simp

end Sys2Proof
end

