-- ==== Sys2Proof/Laws/State.lean ====
section
/-! SUPPORT. What each update of the block and of the machine's state does to each field. -/

namespace Sys2Proof.Machine

variable (b : Block) (s : State)

/-! `Block.setByte`. -/

@[simp] theorem Block.setByte_mem (a : Nat) (v : Byte) : (b.setByte a v).mem = b.mem.put a v := rfl

@[simp] theorem Block.setByte_seq (a : Nat) (v : Byte) : (b.setByte a v).seq = b.seq := rfl

@[simp] theorem Block.setByte_acc (a : Nat) (v : Byte) : (b.setByte a v).acc = b.acc := rfl

@[simp] theorem Block.setByte_result (a : Nat) (v : Byte) : (b.setByte a v).result = b.result := rfl

@[simp] theorem Block.setByte_z (a : Nat) (v : Byte) : (b.setByte a v).z = b.z := rfl

@[simp] theorem Block.setByte_err (a : Nat) (v : Byte) : (b.setByte a v).err = b.err := rfl

@[simp] theorem Block.setByte_fcmd (a : Nat) (v : Byte) : (b.setByte a v).fcmd = b.fcmd := rfl

/-! `Block.memWrite1`. -/

@[simp] theorem Block.memWrite1_mem (a : Nat) (v : Byte) : (b.memWrite1 a v).mem = b.mem.put a v := rfl

@[simp] theorem Block.memWrite1_seq (a : Nat) (v : Byte) : (b.memWrite1 a v).seq = b.seq := rfl

@[simp] theorem Block.memWrite1_acc (a : Nat) (v : Byte) : (b.memWrite1 a v).acc = b.acc := rfl

@[simp] theorem Block.memWrite1_result (a : Nat) (v : Byte) : (b.memWrite1 a v).result = b.result := rfl

@[simp] theorem Block.memWrite1_z (a : Nat) (v : Byte) : (b.memWrite1 a v).z = b.z := rfl

@[simp] theorem Block.memWrite1_err (a : Nat) (v : Byte) : (b.memWrite1 a v).err = b.err := rfl

@[simp] theorem Block.memWrite1_fcmd (a : Nat) (v : Byte) : (b.memWrite1 a v).fcmd = b.fcmd := rfl

/-! `Block.memWrite2`. -/

@[simp] theorem Block.memWrite2_mem (a : Nat) (v : Half) : (b.memWrite2 a v).mem = (b.mem.put a (hiByte v)).put (a + 1) (loByte v) := rfl

@[simp] theorem Block.memWrite2_seq (a : Nat) (v : Half) : (b.memWrite2 a v).seq = b.seq := rfl

@[simp] theorem Block.memWrite2_acc (a : Nat) (v : Half) : (b.memWrite2 a v).acc = b.acc := rfl

@[simp] theorem Block.memWrite2_result (a : Nat) (v : Half) : (b.memWrite2 a v).result = b.result := rfl

@[simp] theorem Block.memWrite2_z (a : Nat) (v : Half) : (b.memWrite2 a v).z = b.z := rfl

@[simp] theorem Block.memWrite2_err (a : Nat) (v : Half) : (b.memWrite2 a v).err = b.err := rfl

@[simp] theorem Block.memWrite2_fcmd (a : Nat) (v : Half) : (b.memWrite2 a v).fcmd = b.fcmd := rfl

/-! `Block.advanceSeq`. -/

@[simp] theorem Block.advanceSeq_mem : (b.advanceSeq).mem = b.mem := rfl

@[simp] theorem Block.advanceSeq_seq : (b.advanceSeq).seq = nextSeq b.seq := rfl

@[simp] theorem Block.advanceSeq_acc : (b.advanceSeq).acc = b.acc := rfl

@[simp] theorem Block.advanceSeq_result : (b.advanceSeq).result = b.result := rfl

@[simp] theorem Block.advanceSeq_z : (b.advanceSeq).z = b.z := rfl

@[simp] theorem Block.advanceSeq_err : (b.advanceSeq).err = b.err := rfl

@[simp] theorem Block.advanceSeq_fcmd : (b.advanceSeq).fcmd = b.fcmd := rfl

/-! `Block.assertReset`. -/

@[simp] theorem Block.assertReset_mem (m : Memory) : (b.assertReset m).mem = m := rfl

@[simp] theorem Block.assertReset_seq (m : Memory) : (b.assertReset m).seq = 0 := rfl

@[simp] theorem Block.assertReset_acc (m : Memory) : (b.assertReset m).acc = 0 := rfl

@[simp] theorem Block.assertReset_result (m : Memory) : (b.assertReset m).result = 0 := rfl

@[simp] theorem Block.assertReset_z (m : Memory) : (b.assertReset m).z = false := rfl

@[simp] theorem Block.assertReset_err (m : Memory) : (b.assertReset m).err = 0 := rfl

@[simp] theorem Block.assertReset_fcmd (m : Memory) : (b.assertReset m).fcmd = 0 := rfl

/-! `Block.memFill` changes `mem` alone. -/

@[simp] theorem Block.memFill_seq (base : Nat) (v : Byte) (n : Nat) : (b.memFill base v n).seq = b.seq := by
  induction n with
  | zero => rfl
  | succ n ih => simpa [Block.memFill] using ih

@[simp] theorem Block.memFill_acc (base : Nat) (v : Byte) (n : Nat) : (b.memFill base v n).acc = b.acc := by
  induction n with
  | zero => rfl
  | succ n ih => simpa [Block.memFill] using ih

@[simp] theorem Block.memFill_result (base : Nat) (v : Byte) (n : Nat) : (b.memFill base v n).result = b.result := by
  induction n with
  | zero => rfl
  | succ n ih => simpa [Block.memFill] using ih

@[simp] theorem Block.memFill_z (base : Nat) (v : Byte) (n : Nat) : (b.memFill base v n).z = b.z := by
  induction n with
  | zero => rfl
  | succ n ih => simpa [Block.memFill] using ih

@[simp] theorem Block.memFill_err (base : Nat) (v : Byte) (n : Nat) : (b.memFill base v n).err = b.err := by
  induction n with
  | zero => rfl
  | succ n ih => simpa [Block.memFill] using ih

@[simp] theorem Block.memFill_fcmd (base : Nat) (v : Byte) (n : Nat) : (b.memFill base v n).fcmd = b.fcmd := by
  induction n with
  | zero => rfl
  | succ n ih => simpa [Block.memFill] using ih

/-! `Block.writePacket` and `Block.clearChecksum` change `mem` alone. -/

@[simp] theorem Block.writePacket_seq (cfg : Cfg) : (b.writePacket cfg).seq = b.seq := by simp [Block.writePacket]

@[simp] theorem Block.clearChecksum_seq : b.clearChecksum.seq = b.seq := rfl

@[simp] theorem Block.writePacket_acc (cfg : Cfg) : (b.writePacket cfg).acc = b.acc := by simp [Block.writePacket]

@[simp] theorem Block.clearChecksum_acc : b.clearChecksum.acc = b.acc := rfl

@[simp] theorem Block.writePacket_result (cfg : Cfg) : (b.writePacket cfg).result = b.result := by simp [Block.writePacket]

@[simp] theorem Block.clearChecksum_result : b.clearChecksum.result = b.result := rfl

@[simp] theorem Block.writePacket_z (cfg : Cfg) : (b.writePacket cfg).z = b.z := by simp [Block.writePacket]

@[simp] theorem Block.clearChecksum_z : b.clearChecksum.z = b.z := rfl

@[simp] theorem Block.writePacket_err (cfg : Cfg) : (b.writePacket cfg).err = b.err := by simp [Block.writePacket]

@[simp] theorem Block.clearChecksum_err : b.clearChecksum.err = b.err := rfl

@[simp] theorem Block.writePacket_fcmd (cfg : Cfg) : (b.writePacket cfg).fcmd = b.fcmd := by simp [Block.writePacket]

@[simp] theorem Block.clearChecksum_fcmd : b.clearChecksum.fcmd = b.fcmd := rfl

/-! The outcomes: the block's next state, and the response. -/

@[simp] theorem Block.respond_block (d : Word) : (b.respond d).1 = b := rfl

@[simp] theorem Block.respond_response (d : Word) : (b.respond d).2 = ⟨d, 0⟩ := rfl

@[simp] theorem Block.takeFault_mem (c : FaultCode) (w : Word) : (b.takeFault c w).1.mem = b.mem := rfl

@[simp] theorem Block.takeFault_seq (c : FaultCode) (w : Word) : (b.takeFault c w).1.seq = b.seq := rfl

@[simp] theorem Block.takeFault_acc (c : FaultCode) (w : Word) : (b.takeFault c w).1.acc = b.acc := rfl

@[simp] theorem Block.takeFault_result (c : FaultCode) (w : Word) : (b.takeFault c w).1.result = b.result := rfl

@[simp] theorem Block.takeFault_z (c : FaultCode) (w : Word) : (b.takeFault c w).1.z = b.z := rfl

@[simp] theorem Block.takeFault_err (c : FaultCode) (w : Word) : (b.takeFault c w).1.err = if c.latched then c.bits else b.err := rfl

@[simp] theorem Block.takeFault_fcmd (c : FaultCode) (w : Word) : (b.takeFault c w).1.fcmd = if c.latched then w else b.fcmd := rfl

@[simp] theorem Block.takeFault_response (c : FaultCode) (w : Word) : (b.takeFault c w).2 = ⟨0, c.bits⟩ := rfl

@[simp] theorem Block.deliverChecksum_mem (raw : Word) : (b.deliverChecksum raw).1.mem = b.mem := rfl

@[simp] theorem Block.deliverChecksum_seq (raw : Word) : (b.deliverChecksum raw).1.seq = b.seq := rfl

@[simp] theorem Block.deliverChecksum_acc (raw : Word) : (b.deliverChecksum raw).1.acc = raw := rfl

@[simp] theorem Block.deliverChecksum_result (raw : Word) : (b.deliverChecksum raw).1.result = ~~~(fold raw) := rfl

@[simp] theorem Block.deliverChecksum_z (raw : Word) : (b.deliverChecksum raw).1.z = zeroFlag (~~~(fold raw)) := rfl

@[simp] theorem Block.deliverChecksum_err (raw : Word) : (b.deliverChecksum raw).1.err = b.err := rfl

@[simp] theorem Block.deliverChecksum_fcmd (raw : Word) : (b.deliverChecksum raw).1.fcmd = b.fcmd := rfl

@[simp] theorem Block.deliverChecksum_response (raw : Word) : (b.deliverChecksum raw).2 = ⟨(~~~(fold raw)).setWidth 32, 0⟩ := rfl

/-! `State.answer`. -/

@[simp] theorem State.answer_toBlock (r : Block × Response) : (s.answer r).toBlock = r.1 := rfl

@[simp] theorem State.answer_cfg (r : Block × Response) : (s.answer r).cfg = s.cfg := rfl

@[simp] theorem State.answer_cmds (r : Block × Response) : (s.answer r).cmds = s.cmds := rfl

@[simp] theorem State.answer_rsp (r : Block × Response) : (s.answer r).rsp = some r.2 := rfl

/-! `State.idle`. -/

@[simp] theorem State.idle_toBlock : (s.idle).toBlock = s.toBlock := rfl

@[simp] theorem State.idle_cfg : (s.idle).cfg = s.cfg := rfl

@[simp] theorem State.idle_cmds : (s.idle).cmds = s.cmds := rfl

@[simp] theorem State.idle_rsp : (s.idle).rsp = none := rfl

/-! `State.issue`. -/

@[simp] theorem State.issue_toBlock (ws : List Word) : (s.issue ws).toBlock = s.toBlock := rfl

@[simp] theorem State.issue_cfg (ws : List Word) : (s.issue ws).cfg = s.cfg := rfl

@[simp] theorem State.issue_cmds (ws : List Word) : (s.issue ws).cmds = ws ++ s.cmds := rfl

@[simp] theorem State.issue_rsp (ws : List Word) : (s.issue ws).rsp = s.rsp := rfl

/-! `State.assertReset`. -/

@[simp] theorem State.assertReset_toBlock (m : Memory) : (s.assertReset m).toBlock = s.toBlock.assertReset m := rfl

@[simp] theorem State.assertReset_cfg (m : Memory) : (s.assertReset m).cfg = s.cfg := rfl

@[simp] theorem State.assertReset_cmds (m : Memory) : (s.assertReset m).cmds = s.cmds := rfl

@[simp] theorem State.assertReset_rsp (m : Memory) : (s.assertReset m).rsp = none := rfl

end Sys2Proof.Machine
end

