-- ==== Sys2Proof/Laws/Memory.lean ====
section
/-! SUPPORT. The memory operations: a read after a write, what a write leaves alone, and that every write keeps the
canonical form. -/

namespace Sys2Proof.Machine

/-! The list of written bytes. -/

theorem Memory.get?_put (m : Memory) (a : Nat) (b : Byte) (x : Nat) :
    (m.put a b).get? x = if x = a then some b else m.get? x := by
  induction m with
  | nil => by_cases h : x = a <;> simp_all [Memory.put, Memory.get?, eq_comm]
  | cons cell rest ih =>
    obtain ⟨k, c⟩ := cell
    simp only [Memory.put]
    split_ifs with h1 h2 <;> simp only [Memory.get?] <;> grind

theorem Memory.mem_put {m : Memory} {a : Nat} {b : Byte} {cell : Host.Cell} (h : cell ∈ m.put a b) :
    cell = (a, b) ∨ cell ∈ m := by
  induction m with
  | nil => simpa [Memory.put] using h
  | cons first rest ih =>
    obtain ⟨k, c⟩ := first
    simp only [Memory.put] at h
    split_ifs at h <;> simp only [List.mem_cons] at h ⊢ <;> grind

theorem Memory.wf_cons {k : Nat} {c : Byte} {rest : Memory} :
    Memory.wf ((k, c) :: rest) ↔ (∀ cell ∈ rest, k < cell.1) ∧ Memory.wf rest := by
  simp [Memory.wf]

/-- Every write keeps the canonical form. -/
theorem Memory.put_wf {m : Memory} (h : m.wf) (a : Nat) (b : Byte) : (m.put a b).wf := by
  induction m with
  | nil => simp [Memory.put, Memory.wf]
  | cons first rest ih =>
    obtain ⟨k, c⟩ := first
    obtain ⟨hk, hrest⟩ := Memory.wf_cons.1 h
    simp only [Memory.put]
    split_ifs with h1 h2
    · refine Memory.wf_cons.2 ⟨fun cell hcell => ?_, ih hrest⟩
      obtain rfl | hm := Memory.mem_put hcell
      · exact h1
      · exact hk cell hm
    · subst h2
      exact Memory.wf_cons.2 ⟨hk, hrest⟩
    · refine Memory.wf_cons.2 ⟨fun cell hcell => ?_, h⟩
      obtain rfl | hm := List.mem_cons.1 hcell
      · simp only; omega
      · have := hk cell hm; omega

/-- Equal memories are equal data: two canonical lists that list the same bytes are the same list. -/
theorem Memory.ext_get? {m m' : Memory} (h : m.wf) (h' : m'.wf) (heq : ∀ a, m.get? a = m'.get? a) : m = m' := by
  have absent : ∀ (r : Memory) (k : Nat), (∀ cell ∈ r, k < cell.1) → r.get? k = none := by
    intro r k hr
    induction r with
    | nil => rfl
    | cons first rest ih =>
      obtain ⟨j, c⟩ := first
      have hj := hr (j, c) (by simp)
      simp only [Memory.get?]
      rw [if_neg (by omega)]
      exact ih fun cell hc => hr cell (by simp [hc])
  induction m generalizing m' with
  | nil =>
    cases m' with
    | nil => rfl
    | cons first rest =>
      have := heq first.1
      simp [Memory.get?] at this
  | cons first rest ih =>
    obtain ⟨k, c⟩ := first
    obtain ⟨hk, hrest⟩ := Memory.wf_cons.1 h
    cases m' with
    | nil =>
      have := heq k
      simp [Memory.get?] at this
    | cons first' rest' =>
      obtain ⟨k', c'⟩ := first'
      obtain ⟨hk', hrest'⟩ := Memory.wf_cons.1 h'
      have hkk : k = k' := by
        rcases Nat.lt_trichotomy k k' with hlt | he | hlt
        · have h1 := heq k
          have h2 := absent ((k', c') :: rest') k (by
            intro cell hc
            obtain rfl | hm := List.mem_cons.1 hc
            · exact hlt
            · have := hk' cell hm; omega)
          rw [h2] at h1
          simp [Memory.get?] at h1
        · exact he
        · have h1 := heq k'
          have h2 := absent ((k, c) :: rest) k' (by
            intro cell hc
            obtain rfl | hm := List.mem_cons.1 hc
            · exact hlt
            · have := hk cell hm; omega)
          rw [h2] at h1
          simp [Memory.get?] at h1
      subst hkk
      have hc : c = c' := by simpa [Memory.get?] using heq k
      subst hc
      have hr : rest = rest' := ih hrest hrest' fun a => by
        by_cases ha : k = a
        · subst ha
          rw [absent rest k hk, absent rest' k hk']
        · simpa [Memory.get?, ha] using heq a
      rw [hr]

/-- Writing the byte already listed changes nothing. -/
theorem Memory.put_same {m : Memory} (h : m.wf) {a : Nat} {b : Byte} (hb : m.get? a = some b) : m.put a b = m := by
  refine Memory.ext_get? (Memory.put_wf h a b) h fun x => ?_
  rw [Memory.get?_put]
  split_ifs with hx
  · rw [hx, hb]
  · rfl

/-! Bytes of the block. -/

variable (b : Block)

/-- `MEM[a] <- v` keeps the canonical form. -/
theorem Block.setByte_wf {b : Block} (h : b.mem.wf) (a : Nat) (v : Byte) : (b.setByte a v).mem.wf :=
  Memory.put_wf h a v

/-- `MemWrite(addr, 1, v)` keeps the canonical form. -/
theorem Block.memWrite1_wf {b : Block} (h : b.mem.wf) (a : Nat) (v : Byte) : (b.memWrite1 a v).mem.wf :=
  Memory.put_wf h a v

/-- `MemWrite(addr, 2, v)` keeps the canonical form. -/
theorem Block.memWrite2_wf {b : Block} (h : b.mem.wf) (a : Nat) (v : Half) : (b.memWrite2 a v).mem.wf :=
  Memory.put_wf (Memory.put_wf h a _) _ _

/-- A fill keeps the canonical form. -/
theorem Block.memFill_wf {b : Block} (h : b.mem.wf) (base : Nat) (v : Byte) (n : Nat) :
    (b.memFill base v n).mem.wf := by
  induction n with
  | zero => exact h
  | succ n ih => exact Block.setByte_wf ih _ _

/-- A read depends on `mem` alone. -/
theorem Block.byteAt_congr {b c : Block} (h : b.mem = c.mem) (x : Nat) : b.byteAt x = c.byteAt x := by
  simp [Block.byteAt, h]

theorem Block.byteAt_setByte (a : Nat) (v : Byte) (x : Nat) :
    (b.setByte a v).byteAt x = if x = a then v else b.byteAt x := by
  simp only [Block.byteAt, Block.setByte_mem, Memory.get?_put]
  split_ifs <;> rfl

theorem Block.byteAt_memWrite1 (a : Nat) (v : Byte) (x : Nat) :
    (b.memWrite1 a v).byteAt x = if x = a then v else b.byteAt x := b.byteAt_setByte a v x

theorem Block.byteAt_memWrite2 (a : Nat) (v : Half) (x : Nat) :
    (b.memWrite2 a v).byteAt x = if x = a then hiByte v else if x = a + 1 then loByte v else b.byteAt x := by
  simp only [Block.memWrite2, Block.byteAt_setByte]
  split_ifs <;> first | rfl | omega

theorem Block.byteAt_memFill (base : Nat) (v : Byte) (n x : Nat) :
    (b.memFill base v n).byteAt x = if base ≤ x ∧ x < base + n then v else b.byteAt x := by
  induction n with
  | zero => simp [Block.memFill]
  | succ n ih =>
    simp only [Block.memFill, Block.byteAt_setByte, ih]
    split_ifs <;> first | rfl | omega

@[simp] theorem Block.byteAt_takeFault (c : FaultCode) (w : Word) (x : Nat) :
    (b.takeFault c w).1.byteAt x = b.byteAt x := rfl

@[simp] theorem Block.byteAt_deliverChecksum (raw : Word) (x : Nat) :
    (b.deliverChecksum raw).1.byteAt x = b.byteAt x := rfl

@[simp] theorem Block.byteAt_advanceSeq (x : Nat) : b.advanceSeq.byteAt x = b.byteAt x := rfl

@[simp] theorem Block.length_bytes (base len : Nat) : (b.bytes base len).length = len := by simp [Block.bytes]

theorem Block.getElem_bytes (base len i : Nat) (h : i < (b.bytes base len).length) :
    (b.bytes base len)[i] = b.byteAt (base + i) := by simp [Block.bytes]

theorem Block.bytes_congr {b c : Block} {base len : Nat} (h : ∀ i < len, b.byteAt (base + i) = c.byteAt (base + i)) :
    b.bytes base len = c.bytes base len := List.map_congr_left fun i hi => h i (List.mem_range.1 hi)

end Sys2Proof.Machine
end

