-- ==== Sys2Proof/Laws/Ops.lean ====
section
/-! SUPPORT. What each shared operation can do, said once: the halted check, issuing a word, the step, and the memory
effects of `BUILD` and `SEAL`. -/

namespace Sys2Proof.Machine

variable {b : Block} {s : State}

theorem Block.halted_eq_false_iff : b.halted = false ↔ b.err = 0 := by simp [Block.halted]

theorem Block.halted_iff : b.halted = true ↔ b.err ≠ 0 := by simp [Block.halted]

/-- A latched code is never 0 (60_exceptions.md R140). -/
theorem FaultCode.bits_ne_zero (c : FaultCode) : c.bits ≠ 0 := by cases c <;> decide

theorem FaultCode.bits_injective {c d : FaultCode} (h : c.bits = d.bits) : c = d := by
  cases c <;> cases d <;> first | rfl | exact absurd h (by decide)

/-- The refusal of 60_exceptions.md R143 changes no state of the block. -/
theorem Block.takeFault_halted (w : Word) : b.takeFault .halted w = (b, ⟨0, 15⟩) := rfl

/-- A latched fault writes `STATUS.ERR` and `FCMD` alone (60_exceptions.md R142). -/
theorem Block.takeFault_latched {c : FaultCode} (h : c.latched = true) (w : Word) :
    b.takeFault c w = ({ b with err := c.bits, fcmd := w }, ⟨0, c.bits⟩) := by
  simp [Block.takeFault, h]

theorem Block.whenRunning_running (h : b.err = 0) (w : Word) (k : Block × Response) : b.whenRunning w k = k := by
  simp [Block.whenRunning, Block.halted, h]

theorem Block.whenRunning_halted (h : b.err ≠ 0) (w : Word) (k : Block × Response) :
    b.whenRunning w k = (b, ⟨0, 15⟩) := if_pos (Block.halted_iff.2 h)

/-- A command's meaning is its pseudocode behind the halted check. -/
theorem exec_eq (i : Instr) (s : State) :
    exec i s = .next (s.answer (s.toBlock.whenRunning (encode i) (s.toBlock.execute s.cfg i))) := by
  cases i <;> rfl

theorem exec_running (h : s.err = 0) (i : Instr) : exec i s = .next (s.answer (s.toBlock.execute s.cfg i)) := by
  rw [exec_eq, Block.whenRunning_running h]

theorem exec_halted (h : s.err ≠ 0) (i : Instr) : exec i s = .next (s.answer (s.toBlock, ⟨0, 15⟩)) := by
  rw [exec_eq, Block.whenRunning_halted h]

/-- Everything a step can do: idle, refuse a word while halted, raise `E_ILLEGAL`, or run the decoded command. -/
theorem step_cases (s : State) :
    (s.cmds = [] ∧ step s = .next s.idle) ∨
    ∃ w ws, s.cmds = w :: ws ∧
      ((s.err ≠ 0 ∧ step s = .next { s with cmds := ws, rsp := some ⟨0, 15⟩ }) ∨
       (s.err = 0 ∧ ∃ why, decode w = .error why ∧
          step s = .next { s with cmds := ws, err := 1, fcmd := w, rsp := some ⟨0, 1⟩ }) ∨
       (s.err = 0 ∧ ∃ i, decode w = .ok i ∧ step s = exec i { s with cmds := ws })) := by
  unfold step runNext
  cases hc : s.cmds with
  | nil => exact .inl ⟨rfl, rfl⟩
  | cons w ws =>
    refine .inr ⟨w, ws, rfl, ?_⟩
    by_cases he : s.err = 0
    · simp only [issueWord, Block.halted_eq_false_iff.2 he]
      cases hd : decode w with
      | error why => exact .inr (.inl ⟨he, why, rfl, rfl⟩)
      | ok i => exact .inr (.inr ⟨he, i, rfl, rfl⟩)
    · simp only [issueWord, Block.halted_iff.2 he]
      exact .inl ⟨he, rfl⟩

variable (b)

theorem Block.byteAt_clearChecksum (x : Nat) :
    b.clearChecksum.byteAt x = if x = 2 ∨ x = 3 then 0 else b.byteAt x := by
  simp only [Block.clearChecksum, Block.byteAt_memWrite2, Config.offChecksum]
  split_ifs <;> first | rfl | omega

/-- Every byte after the writes of `BUILD` (41_packet_builder.md R100, R102). -/
theorem Block.byteAt_writePacket (cfg : Cfg) (x : Nat) :
    (b.writePacket cfg).byteAt x =
      if x = 0 then 0x08
      else if x = 4 then hiByte cfg.ident
      else if x = 5 then loByte cfg.ident
      else if x = 6 then hiByte b.seq
      else if x = 7 then loByte b.seq
      else if x < 64 then 0
      else b.byteAt x := by
  simp only [Block.writePacket, Block.byteAt_memWrite2, Block.byteAt_memWrite1, Block.byteAt_memFill, Config.offType,
    Config.offCode, Config.offChecksum, Config.offIdentifier, Config.offSequence, Config.pktBytes, Config.icmpEchoRequest,
    Config.icmpCode]
  split_ifs <;> first | rfl | omega

/-- The writes of `BUILD` keep the canonical form. -/
theorem Block.writePacket_wf {b : Block} (h : b.mem.wf) (cfg : Cfg) : (b.writePacket cfg).mem.wf :=
  Block.memWrite2_wf (Block.memWrite2_wf (Block.memWrite2_wf (Block.memWrite1_wf (Block.memWrite1_wf
    (Block.memFill_wf h _ _ _) _ _) _ _) _ _) _ _) _ _

/-- The zeroing of `SEAL` keeps the canonical form. -/
theorem Block.clearChecksum_wf {b : Block} (h : b.mem.wf) : b.clearChecksum.mem.wf := Block.memWrite2_wf h _ _

/-! Runs. -/

theorem run_zero : Host.Core.run Sys2Proof.core 0 s = .next s := rfl

/-- A run goes on from the state its first step gives. -/
theorem run_succ {t : State} (h : step s = .next t) (k : Nat) :
    Host.Core.run Sys2Proof.core (k + 1) s = Host.Core.run Sys2Proof.core k t := by
  have hs : Sys2Proof.core.step s = .next t := h
  simp only [Host.Core.run, hs]

theorem runs_nil {t : State} : Runs s [] t ↔ s.cmds = [] ∧ s = t := by
  unfold Runs
  rw [List.length_nil, run_zero]
  exact and_congr_right fun _ => ⟨fun h => by injection h, fun h => h ▸ rfl⟩

/-- A run is its first step and the run of the words that are left. -/
theorem runs_cons {t u : State} {w : Word} {ws : List Word} (hc : s.cmds = w :: ws) (h : step s = .next u)
    (hu : u.cmds = ws) : Runs s (w :: ws) t ↔ Runs u ws t := by
  unfold Runs
  rw [List.length_cons, run_succ h]
  simp [hc, hu]

end Sys2Proof.Machine
end

