-- ==== Sys2Proof/Laws/PerInstr.lean ====
section
/-! SUPPORT. One statement for all commands, one lemma per command: the word of a command lies in the command's own row of
the opcode table (30_encoding.md R64). -/

/-- The encoded word matches its row's mask and match value and has its row's opcode. -/
def Sys2Proof.Laws.TableRow.Statement (i : Sys2Proof.Instr) : Prop :=
  Sys2Proof.encode i &&& Sys2Proof.maskOf i = Sys2Proof.patternOf i ∧
    Sys2Proof.opField (Sys2Proof.encode i) = Sys2Proof.opcodeOf i

theorem Sys2Proof.Laws.TableRow.nop : Sys2Proof.Laws.TableRow.Statement .nop :=
  ⟨Sys2Proof.encode_and_mask _, Sys2Proof.opField_encode _⟩

theorem Sys2Proof.Laws.TableRow.build : Sys2Proof.Laws.TableRow.Statement .build :=
  ⟨Sys2Proof.encode_and_mask _, Sys2Proof.opField_encode _⟩

theorem Sys2Proof.Laws.TableRow.sealPkt : Sys2Proof.Laws.TableRow.Statement .sealPkt :=
  ⟨Sys2Proof.encode_and_mask _, Sys2Proof.opField_encode _⟩

theorem Sys2Proof.Laws.TableRow.csum (base len : Sys2Proof.Addr) :
    Sys2Proof.Laws.TableRow.Statement (.csum base len) :=
  ⟨Sys2Proof.encode_and_mask _, Sys2Proof.opField_encode _⟩

theorem Sys2Proof.Laws.TableRow.ldb (addr : Sys2Proof.Addr) : Sys2Proof.Laws.TableRow.Statement (.ldb addr) :=
  ⟨Sys2Proof.encode_and_mask _, Sys2Proof.opField_encode _⟩

theorem Sys2Proof.Laws.TableRow.stb (addr : Sys2Proof.Addr) (data : Sys2Proof.Byte) :
    Sys2Proof.Laws.TableRow.Statement (.stb addr data) :=
  ⟨Sys2Proof.encode_and_mask _, Sys2Proof.opField_encode _⟩

theorem Sys2Proof.Laws.TableRow.rdreg (reg : Sys2Proof.RegNum) : Sys2Proof.Laws.TableRow.Statement (.rdreg reg) :=
  ⟨Sys2Proof.encode_and_mask _, Sys2Proof.opField_encode _⟩
end

