-- ==== Sys2Proof/Tests/Slice0.lean ====
section
/-! SUPPORT. Tests, with expected results from the worked examples and vectors of spec/, and for each obligation with
hypotheses a witness that meets them. -/

open Sys2Proof Sys2Proof.Machine

namespace Sys2Proof.Tests

/-- A state after reset with the given configuration. -/
def start (memBytes : Nat) (ident : Half) : State := { State.reset with cfg := ⟨memBytes, ident⟩ }

/-- A memory whose first bytes are the given ones. -/
def listed (bytes : List Byte) : Memory := (List.range bytes.length).zip bytes

/-- A check on the next state of an outcome. -/
def nextIs (o : Host.Outcome State Fault Refusal) (p : State → Bool) : Bool :=
  match o with
  | .next t => p t
  | .fault _ => false
  | .refused _ => false

/-! The operand checks of the assembler (30_encoding.md R63, R69). -/

theorem test_csum_base_ill_formed : (SourceCmd.csum 4096 0).wellFormed = false := by decide
theorem test_csum_len_ill_formed : (SourceCmd.csum 0 4096).wellFormed = false := by decide
theorem test_ldb_addr_ill_formed : (SourceCmd.ldb 4096).wellFormed = false := by decide
theorem test_stb_addr_ill_formed : (SourceCmd.stb 4096 0).wellFormed = false := by decide
theorem test_stb_data_ill_formed : (SourceCmd.stb 0 256).wellFormed = false := by decide
theorem test_rdreg_reg_ill_formed : (SourceCmd.rdreg 16).wellFormed = false := by decide
theorem test_verify_base_ill_formed : (SourceCmd.verify 4096 0).wellFormed = false := by decide
theorem test_verify_len_ill_formed : (SourceCmd.verify 0 4096).wellFormed = false := by decide
theorem test_largest_operands_well_formed :
    (SourceCmd.csum 4095 4095).wellFormed = true ∧ (SourceCmd.stb 4095 255).wellFormed = true ∧
    (SourceCmd.rdreg 15).wellFormed = true := by decide

/-! Words written out from the patterns of 30_encoding.md R64: 8, 12 and 12 bits. -/

theorem test_decode_nop : decode (0b00000000#8 ++ 0b000000000000#12 ++ 0b000000000000#12) = .ok .nop := by decide
theorem test_decode_build : decode (0b00000001#8 ++ 0b000000000000#12 ++ 0b000000000000#12) = .ok .build := by decide
theorem test_decode_seal : decode (0b00000010#8 ++ 0b000000000000#12 ++ 0b000000000000#12) = .ok .sealPkt := by decide
theorem test_decode_csum :
    decode (0b00000011#8 ++ 0b100001000001#12 ++ 0b010000001011#12) = .ok (.csum 0x841 0x40B) := by decide
theorem test_decode_ldb :
    decode (0b00000100#8 ++ 0b100000111110#12 ++ 0b000000000000#12) = .ok (.ldb 0x83E) := by decide
theorem test_decode_stb :
    decode (0b00000101#8 ++ 0b000001000000#12 ++ 0b0000#4 ++ 0b11110010#8) = .ok (.stb 0x40 0xF2) := by decide
theorem test_decode_rdreg :
    decode (0b00000110#8 ++ 0b000000000000#12 ++ 0b00000000#8 ++ 0b1101#4) = .ok (.rdreg 13) := by decide

/-- V53, V54, V51: a zero field with a bit set, the all-ones word. -/
theorem test_decode_illegal :
    decode 0x02800000 = .error (.noOperandZero 2) ∧ decode 0x00000100 = .error (.noOperandZero 0) ∧
    decode 0xFFFFFFFF = .error (.unassignedOp 0xFF) := by decide

theorem test_table_word : decodeTableWord 32 0x03040008 = some (.csum 0x40 8) ∧ decodeTableWord 32 0x06000010 = none := by
  decide

/-! The commands. -/

/-- 42_access.md R120. -/
theorem test_nop : nextIs (exec .nop (start 256 0)) (fun t => t.rsp == some ⟨0, 0⟩ && t.mem == []) = true := by decide

/-- V32: the packet carries the old `SEQ`, which wraps. -/
theorem test_build_wraps :
    nextIs (exec .build { start 256 0x1234 with seq := 0xFFFF })
      (fun t => t.bytes 0 10 == [0x08, 0x00, 0x00, 0x00, 0x12, 0x34, 0xFF, 0xFF, 0x00, 0x00] && t.seq == 0x0000 &&
        t.rsp == some ⟨0x0000FFFF, 0⟩) = true := by decide +kernel

/-- 95_test_vectors.md section 2.3: `BUILD` ignores old memory. -/
theorem test_build_overwrites :
    nextIs (exec .build { start 64 0 with mem := listed (List.replicate 64 0xFF) })
      (fun t => t.bytes 0 64 == 0x08 :: List.replicate 63 0x00) = true := by decide +kernel

/-- V31: the sealed packet. -/
theorem test_seal :
    nextIs (exec .sealPkt { start 256 0x1234 with
        mem := listed ([0x08, 0x00, 0x00, 0x00, 0x12, 0x34, 0x00, 0x01] ++ List.replicate 56 0x00) })
      (fun t => t.bytes 0 8 == [0x08, 0x00, 0xE5, 0xCA, 0x12, 0x34, 0x00, 0x01] && t.acc == 0x00001A35 &&
        t.result == 0xE5CA && !t.z && t.rsp == some ⟨0x0000E5CA, 0⟩) = true := by decide +kernel

/-- V34 with a stale field: the field is zeroed first, and a checksum of 0x0000 is stored as it is. -/
theorem test_seal_zero_checksum :
    nextIs (exec .sealPkt { start 64 0xF7FF with
        mem := listed ([0x08, 0x00, 0xAA, 0x55, 0xF7, 0xFF, 0x00, 0x00] ++ List.replicate 56 0x00) })
      (fun t => t.bytes 0 4 == [0x08, 0x00, 0x00, 0x00] && t.acc == 0x0000FFFF && t.result == 0 && t.z) = true := by
  decide +kernel

/-- P2 step 10 (V12): an odd length. -/
theorem test_csum_odd_length :
    nextIs (exec (.csum 0 7) { start 64 0 with mem := listed [0x00, 0x01, 0xF2, 0x03, 0xF4, 0xF5, 0xF6, 0xF7] })
      (fun t => t.acc == 0x0002DCF9 && t.result == 0x2304 && !t.z && t.rsp == some ⟨0x00002304, 0⟩) = true := by decide

/-- V62: a range one byte too long. -/
theorem test_csum_out_of_range :
    nextIs (exec (.csum 0 257) (start 256 0))
      (fun t => t.err == 3 && t.fcmd == 0x03000101 && t.acc == 0 && t.rsp == some ⟨0, 3⟩) = true := by decide

/-- V42, V60 of 95_test_vectors.md: the byte zero-extended; the first address outside. -/
theorem test_ldb :
    nextIs (exec (.ldb 3) { start 256 0 with mem := listed [0x08, 0x00, 0xE5, 0xCA] })
      (fun t => t.rsp == some ⟨0x000000CA, 0⟩) = true := by decide

theorem test_ldb_out_of_range :
    nextIs (exec (.ldb 256) (start 256 0)) (fun t => t.err == 3 && t.fcmd == 0x04100000) = true := by decide

/-- V43. -/
theorem test_stb :
    nextIs (exec (.stb 0x40 0xF2) { start 256 0 with z := true })
      (fun t => t.byteAt 0x40 == 0xF2 && t.z && t.rsp == some ⟨0, 0⟩) = true := by decide

/-- V61. -/
theorem test_stb_out_of_range :
    nextIs (exec (.stb 256 0) (start 256 0)) (fun t => t.err == 3 && t.fcmd == 0x05100000 && t.mem == []) = true := by
  decide

/-- V47: `STATUS` with `Z` set. -/
theorem test_rdreg_status :
    nextIs (exec (.rdreg 0) { start 256 0 with z := true }) (fun t => t.rsp == some ⟨0x00000002, 0⟩) = true := by decide

/-- V59. -/
theorem test_rdreg_bad_number :
    nextIs (exec (.rdreg 15) (start 256 0)) (fun t => t.err == 2 && t.fcmd == 0x0600000F) = true := by decide

/-! The step and the checksum functions. -/

/-- V66: decoding is checked before the range. -/
theorem test_step_illegal_before_range :
    nextIs (step ((start 256 0).withFetchWord 32 0x04FFF001))
      (fun t => t.err == 1 && t.fcmd == 0x04FFF001 && t.halted) = true := by decide

/-- V68: a halted engine refuses a word. -/
theorem test_step_halted :
    nextIs (step { start 256 0 with err := 3, fcmd := 0x03040041, cmds := [0x01000000] })
      (fun t => t.err == 3 && t.fcmd == 0x03040041 && t.seq == 0 && t.rsp == some ⟨0, 15⟩) = true := by decide

/-- The first command after reset runs. -/
theorem test_first_word_after_reset :
    nextIs (step (State.reset.withFetchWord 32 0x050400F2)) (fun t => t.byteAt 0x40 == 0xF2) = true := by decide

/-- V66 of 95_test_vectors.md and 70_reset_and_hazards.md R160: the spec's step function; reset out of a halted state. -/
theorem test_block_step :
    (Block.step ⟨256, 0⟩ Block.reset 0x04FFF001 == ({ Block.reset with err := 1, fcmd := 0x04FFF001 }, ⟨0, 1⟩)) = true ∧
    ({ start 256 7 with err := 3, seq := 9 }.assertReset [(0, 0xAA)]).err = 0 := by decide

/-- V7, V10, V13, V24 of 95_test_vectors.md. -/
theorem test_chk :
    chk [0xFF, 0xFF, 0xFF, 0xFF, 0x00, 0x01] = 0xFFFE ∧
    chk [0x00, 0x01, 0xF2, 0x03, 0xF4, 0xF5, 0xF6, 0xF7] = 0x220D ∧
    chk [0xFF, 0xFF, 0xFF, 0xFF] = 0x0000 ∧ chk [0xAB, 0xCD, 0x65, 0x31, 0xEF] = 0x0000 := by decide

/-- 95_test_vectors.md section 2.1: the fold at the extremes. -/
theorem test_fold :
    fold 0xFFFFFFFF = 0xFFFF ∧ fold 0xFFFF0000 = 0xFFFF ∧ fold 0xFFFEFFFF = 0xFFFE ∧ fold 0x00010000 = 0x0001 := by decide

/-- 30_encoding.md R69, R72: a line of text with blanks and a comment. -/
theorem test_assemble_line :
    assembleLine ['C', 'S', 'U', 'M', ' ', ' ', '0', 'x', '4', '0', ',', ' ', '8', ' ', ';', 'x'] = some [0x03040008] ∧
    assembleLine ['R', 'D', 'R', 'E', 'G', ' ', 'S', 'E', 'Q'] = some [0x06000001] ∧
    assembleLine ['S', 'T', 'B', ' ', '8', ',', '0', 'x', 'A', 'A'] = some [0x050080AA] ∧
    assembleLine ['M', 'K', 'P', 'K', 'T'] = some [0x01000000, 0x02000000] ∧
    assembleLine ['L', 'D', 'B', ' ', '4', '0', '9', '6'] = none ∧ assembleLine ['N', 'O', 'P', ' ', '1'] = none := by
  decide

/-! Witnesses: for each obligation with hypotheses, a state and operands that meet them together. -/

theorem witness_EncodeOfDecode : decode 0x04002000 = .ok (.ldb 2) := by decide

theorem witness_OperandsAreFields :
    decode 0x03FFFFFF = .ok (.csum 0xFFF 0xFFF) ∧ decode 0x04FFF000 = .ok (.ldb 0xFFF) ∧
    decode 0x05FFF0FF = .ok (.stb 0xFFF 0xFF) ∧ decode 0x0600000F = .ok (.rdreg 0xF) := by decide

theorem witness_IllegalWordsExactly_illegal :
    ((start 256 0).issue [0x07000000]).err = 0 ∧ ((start 256 0).issue [0x07000000]).cmds = [0x07000000] ∧
    decode 0x07000000 = .error (.unassignedOp 7) := by decide

theorem witness_IllegalWordsExactly_range :
    ((start 256 0).issue [0x03000101]).err = 0 ∧ ((start 256 0).issue [0x03000101]).cmds = [0x03000101] ∧
    (0x03000101 : Word).toNat / 2 ^ 24 = 3 ∧
    ((start 256 0).issue [0x03000101]).cfg.memBytes <
      (0x03000101 : Word).toNat / 4096 % 4096 + (0x03000101 : Word).toNat % 4096 := by decide

theorem witness_IllegalWordsExactly_regnum :
    ((start 256 0).issue [0x06000006]).err = 0 ∧ ((start 256 0).issue [0x06000006]).cmds = [0x06000006] ∧
    (0x06000006 : Word).toNat / 16 = 0x600000 ∧ 6 ≤ (0x06000006 : Word).toNat % 16 := by decide

theorem witness_StepRunsDecodedCommand :
    ((start 256 0).issue [0x00000000]).cmds = [0x00000000] ∧ decode 0x00000000 = .ok .nop := by decide

theorem witness_StepIsBlockStep : ((start 256 0).issue [0x04FFF001]).cmds = [0x04FFF001] := by decide

theorem witness_RunIsBlockSteps : ((start 256 0).issue [0x01000000, 0x02000000]).cmds = [0x01000000, 0x02000000] := by decide

theorem witness_NoWordKeepsState : (start 256 0).cmds = [] := by decide

/-- A halted state with a word to come, for `HaltedRefusesEveryWord`, `HaltedForever` and the halted clauses of
`NopDoesNothing`, `FaultsArePrecise` and `FaultCodesAndCauses`. -/
def haltedState : State := { start 256 0 with err := 3, fcmd := 0x04100000, cmds := [0x01000000, 0x00000000] }

theorem witness_HaltedRefusesEveryWord :
    haltedState.err ≠ 0 ∧ haltedState.cmds = [0x01000000, 0x00000000] := by decide

theorem witness_HaltedForever : haltedState.err ≠ 0 ∧ haltedState.cmds = [0x01000000, 0x00000000] := by decide

theorem witness_NopDoesNothing : (start 256 0).err = 0 ∧ haltedState.err ≠ 0 := by decide

theorem witness_BuildWritesPacket : (start 64 0).err = 0 := by decide

theorem witness_SealStoresChecksum :
    ∃ (raw : Word) (c : Half), (start 64 0).err = 0 ∧
      raw = wordsum ((((start 64 0).bytes 0 64).set 2 0).set 3 0) ∧ c = ~~~(fold raw) := ⟨_, _, rfl, rfl, rfl⟩

theorem witness_CsumReturnsChecksum_admitted :
    ∃ (raw : Word) (c : Half), (start 256 0).err = 0 ∧
      (0x0FF : Addr).toNat + (0x001 : Addr).toNat ≤ (start 256 0).cfg.memBytes ∧
      raw = wordsum ((List.range (0x001 : Addr).toNat).map fun j => (start 256 0).byteAt ((0x0FF : Addr).toNat + j)) ∧
      c = ~~~(fold raw) := ⟨_, _, rfl, by decide, rfl, rfl⟩

theorem witness_CsumReturnsChecksum_refused :
    (start 256 0).err = 0 ∧ (start 256 0).cfg.memBytes < (0x0FF : Addr).toNat + (0x002 : Addr).toNat := by decide

theorem witness_CsumOfEmptyRange :
    (start 256 0).err = 0 ∧ (0x100 : Addr).toNat ≤ (start 256 0).cfg.memBytes := by decide

theorem witness_LdbReturnsByte :
    (start 256 0).err = 0 ∧ (0x0FF : Addr).toNat < (start 256 0).cfg.memBytes ∧
    (start 256 0).cfg.memBytes ≤ (0x100 : Addr).toNat := by decide

theorem witness_StbWritesByte :
    (start 256 0).err = 0 ∧ (0x0FF : Addr).toNat < (start 256 0).cfg.memBytes ∧
    (start 256 0).cfg.memBytes ≤ (0x100 : Addr).toNat := by decide

theorem witness_RdregReturnsRegister :
    (start 256 0).err = 0 ∧ 5 < (6 : RegNum).toNat ∧ 5 < (15 : RegNum).toNat := by decide

theorem witness_RdregReturnsRegister_record : (start 256 0).err = 0 ∧ (start 256 0).FaultRecordOk :=
  ⟨rfl, .inl ⟨rfl, rfl⟩⟩

theorem witness_WriteSets (i : Instr) (hi : i ∈ [Instr.nop, .build, .sealPkt, .csum 0xFF 1, .ldb 0xFF, .stb 0xFF 7, .rdreg 5]) :
    ∃ t, (start 256 0).err = 0 ∧ exec i (start 256 0) = .next t ∧ t.err = 0 := by
  simp only [List.mem_cons, List.not_mem_nil, or_false] at hi
  rcases hi with rfl | rfl | rfl | rfl | rfl | rfl | rfl <;> exact ⟨_, rfl, rfl, rfl⟩

/-- A state that differs from `start 256 0` in `ACC` and agrees with it on every read set but that of `RDREG` of `ACC`. -/
def other : State := { start 256 0 with acc := 7 }

theorem witness_ReadSets (i : Instr)
    (hi : i ∈ [Instr.nop, .build, .sealPkt, .csum 0xFF 1, .csum 0xFF 2, .ldb 0x100, .stb 0xFF 7, .rdreg 5]) :
    ∃ s' t', (start 256 0).err = 0 ∧ other.err = 0 ∧
      (start 256 0).cfg = other.cfg ∧ exec i (start 256 0) = .next s' ∧
      exec i other = .next t' ∧ (start 256 0).seq = other.seq ∧
      (∀ a, (start 256 0).byteAt a = other.byteAt a) ∧
      (∀ r, regOfNum 5 = some r → (start 256 0).readReg (start 256 0).cfg r = other.readReg other.cfg r) := by
  have hr : ∀ r, regOfNum 5 = some r → (start 256 0).readReg (start 256 0).cfg r = other.readReg other.cfg r := by
    rintro r hr
    injection hr with hr
    subst hr
    rfl
  simp only [List.mem_cons, List.not_mem_nil, or_false] at hi
  rcases hi with rfl | rfl | rfl | rfl | rfl | rfl | rfl | rfl <;> exact ⟨_, _, rfl, rfl, rfl, rfl, rfl, rfl, fun _ => rfl, hr⟩

theorem witness_RangeFaultExactly :
    (start 256 0).err = 0 ∧ (∃ t, exec (.ldb 0xFF) (start 256 0) = .next t) ∧ (∃ t, exec (.ldb 0x100) (start 256 0) = .next t) ∧
    (∃ t, exec (.stb 0xFF 1) (start 256 0) = .next t) ∧ (∃ t, exec (.stb 0x100 1) (start 256 0) = .next t) ∧
    (∃ t, exec (.csum 0xFF 1) (start 256 0) = .next t) ∧ (∃ t, exec (.csum 0xFF 2) (start 256 0) = .next t) ∧
    (∃ t, exec .build (start 256 0) = .next t) ∧ (∃ t, exec .sealPkt (start 256 0) = .next t) :=
  ⟨rfl, ⟨_, rfl⟩, ⟨_, rfl⟩, ⟨_, rfl⟩, ⟨_, rfl⟩, ⟨_, rfl⟩, ⟨_, rfl⟩, ⟨_, rfl⟩, ⟨_, rfl⟩⟩

theorem witness_FaultsArePrecise :
    ∃ t, ((start 256 0).issue [0x04100000]).err = 0 ∧ ((start 256 0).issue [0x04100000]).cmds = [0x04100000] ∧
      step ((start 256 0).issue [0x04100000]) = .next t ∧ t.err ≠ 0 := ⟨_, rfl, rfl, rfl, by decide⟩

theorem witness_FaultsArePrecise_halted : ∃ t, haltedState.err ≠ 0 ∧ step haltedState = .next t :=
  ⟨_, by decide, rfl⟩

theorem witness_FaultCodesAndCauses :
    ∃ t, ((start 256 0).issue [0x06000006]).err = 0 ∧ ((start 256 0).issue [0x06000006]).cmds = [0x06000006] ∧
      step ((start 256 0).issue [0x06000006]) = .next t := ⟨_, rfl, rfl, rfl⟩

theorem witness_FaultCodesAndCauses_halted :
    ∃ t, haltedState.err ≠ 0 ∧ haltedState.cmds = [0x01000000, 0x00000000] ∧ step haltedState = .next t :=
  ⟨_, by decide, rfl, rfl⟩

theorem witness_DecodeCheckedBeforeRange :
    ((start 256 0).issue [0x04FFF001]).cmds = [0x04FFF001] ∧ ((start 256 0).issue [0x04FFF001]).err = 0 ∧
    (haltedState.issue [0x04FFF001]).err ≠ 0 ∧
    (haltedState.issue [0x04FFF001]).cmds = 0x04FFF001 :: haltedState.cmds := by decide

theorem witness_StatusRegister (i : Instr) (hi : i ∈ [Instr.nop, .build, .sealPkt, .csum 0xFF 1, .ldb 0xFF, .stb 0xFF 7, .rdreg 5]) :
    ∃ t, (start 256 0).err = 0 ∧ exec i (start 256 0) = .next t ∧ t.err = 0 := witness_WriteSets i hi

theorem witness_StatusRegister_fault :
    ∃ t, step ((start 256 0).issue [0x07000000]) = .next t ∧ t.err ≠ ((start 256 0).issue [0x07000000]).err :=
  ⟨_, rfl, by decide⟩

theorem witness_SeqAdvancesOnBuildOnly :
    ∃ t, step { start 64 0 with seq := 0xFFFF, cmds := [0x01000000] } = .next t := ⟨_, rfl⟩

theorem witness_SeqCountsBuilds :
    ∃ t, Runs ((start 64 0).issue [0x01000000, 0x00000000]) [0x01000000, 0x00000000] t ∧ ¬ t.goneWrong :=
  ⟨_, ⟨rfl, rfl⟩, by decide⟩

theorem witness_ConfigurationNeverChanges : ∃ t, step ((start 64 7).issue [0x01000000]) = .next t := ⟨_, rfl⟩

theorem witness_ResetPort : Memory.get? [(0, 0xAA), (255, 0x55)] 255 = some 0x55 := by decide

theorem witness_InvariantsAtReset :
    haltedState.cfg.Legal ∧ Memory.wf [(0, 0xAA), (255, 0x55)] ∧
    ∀ cell ∈ ([(0, 0xAA), (255, 0x55)] : Memory), cell.1 < haltedState.cfg.memBytes := by decide

theorem witness_StepKeepsMemoryOk :
    ∃ t, ((start 64 0).issue [0x0503F001]).MemoryOk ∧ step ((start 64 0).issue [0x0503F001]) = .next t :=
  ⟨_, ⟨by decide, by decide, by decide⟩, rfl⟩

theorem witness_StepKeepsFaultRecordOk :
    ∃ t, ((start 64 0).issue [0x04040000]).FaultRecordOk ∧ step ((start 64 0).issue [0x04040000]) = .next t :=
  ⟨_, .inl ⟨rfl, rfl⟩, rfl⟩

theorem witness_UnwrittenByteStable :
    ∃ t, Runs ((start 256 0).issue [0x050400F2, 0x01000000]) [0x050400F2, 0x01000000] t ∧
      (∀ w ∈ [(0x050400F2 : Word), 0x01000000], match decode w with
        | .ok .build => 64 ≤ 65
        | .ok .sealPkt => 65 ≠ 2 ∧ 65 ≠ 3
        | .ok (.stb addr _) => addr.toNat ≠ 65
        | _ => True) := by
  refine ⟨_, ⟨rfl, rfl⟩, ?_⟩
  intro w hw
  simp only [List.mem_cons, List.not_mem_nil, or_false] at hw
  rcases hw with rfl | rfl
  · show (0x040 : Addr).toNat ≠ 65
    decide
  · show 64 ≤ 65
    decide

theorem witness_WordsumIsExactSum : (List.replicate 4095 (0xFF : Byte)).length ≤ 4095 :=
  (List.length_replicate (n := 4095) (a := (0xFF : Byte))).le

theorem witness_OddLengthPadsWithZero : [(0xAB : Byte)].length % 2 = 1 := by decide

theorem witness_WordOrderIrrelevant :
    [((0xAB, 0xCD) : Byte × Byte), (0x01, 0x02)].Perm [(0x01, 0x02), (0xAB, 0xCD)] := by decide

theorem witness_TwoPassesSuffice : 2 ≤ 2 ∧
    ∃ s1 s2 : Nat, s1 = (0xFFFFFFFF : Word).toNat % 65536 + (0xFFFFFFFF : Word).toNat / 65536 ∧
      s2 = s1 % 65536 + s1 / 65536 % 2 := ⟨le_refl 2, _, _, rfl, rfl⟩

theorem witness_FoldLaws : 0 < (0xFFFFFFFF : Word).toNat ∧ (0x0000FFFF : Word).toNat ≤ 0xFFFF := by decide

/-- The shortest buffer and an odd-length one (V24). -/
theorem witness_SelfVerification :
    (∃ (B B0 B1 : List Byte) (k : Nat) (c : Half), B.length = 2 ∧ 2 ≤ B.length ∧ B.length ≤ 4095 ∧ k % 2 = 0 ∧
      k + 1 < B.length ∧ B0 = (B.set k 0x00).set (k + 1) 0x00 ∧ c = chk B0 ∧
      B1 = (B0.set k (c.extractLsb' 8 8)).set (k + 1) (c.extractLsb' 0 8)) ∧
    (∃ (B B0 B1 : List Byte) (k : Nat) (c : Half), B.length = 5 ∧ 2 ≤ B.length ∧ B.length ≤ 4095 ∧ k % 2 = 0 ∧
      k + 1 < B.length ∧ B0 = (B.set k 0x00).set (k + 1) 0x00 ∧ c = chk B0 ∧
      B1 = (B0.set k (c.extractLsb' 8 8)).set (k + 1) (c.extractLsb' 0 8)) :=
  ⟨⟨[0, 0], _, _, 0, _, rfl, by decide, by decide, rfl, by decide, rfl, rfl, rfl⟩,
   ⟨[0xAB, 0xCD, 0, 0, 0xEF], _, _, 2, _, rfl, by decide, by decide, rfl, by decide, rfl, rfl, rfl⟩⟩

theorem witness_WhichStoredValuesVerify :
    ∃ (B B0 B1 : List Byte) (k : Nat) (c v : Half), 2 ≤ B.length ∧ B.length ≤ 4095 ∧ k % 2 = 0 ∧ k + 1 < B.length ∧
      B0 = (B.set k 0x00).set (k + 1) 0x00 ∧ c = chk B0 ∧
      B1 = (B0.set k (v.extractLsb' 8 8)).set (k + 1) (v.extractLsb' 0 8) ∧ c = 0x0000 ∧ v = 0xFFFF :=
  ⟨[0xFF, 0xFF, 0, 0], _, _, 2, _, 0xFFFF, by decide, by decide, rfl, by decide, rfl, rfl, rfl, by decide, rfl⟩

theorem witness_CsumIdempotent :
    ∃ t, (start 64 0).err = 0 ∧ (0x03F : Addr).toNat + (0x001 : Addr).toNat ≤ (start 64 0).cfg.memBytes ∧
      exec (.csum 0x03F 0x001) (start 64 0) = .next t := ⟨_, rfl, by decide, rfl⟩

theorem witness_SealIdempotent :
    ∃ t u v, (start 64 0).err = 0 ∧ (start 64 0).mem.wf ∧ (0x03F : Addr).toNat < 64 ∧
      (0x03F : Addr).toNat < (start 64 0).cfg.memBytes ∧ exec .sealPkt (start 64 0) = .next t ∧
      exec (.stb 0x03F 1) t = .next u ∧ exec .sealPkt u = .next v :=
  ⟨_, _, _, rfl, by decide, by decide, by decide, rfl, rfl, rfl⟩

theorem witness_MkpktPacket :
    ∃ (a : Nat) (c : Half), (start 64 0xF7FF).err = 0 ∧
      a = 0x0800 + (start 64 0xF7FF).cfg.ident.toNat + (start 64 0xF7FF).seq.toNat ∧ c = ~~~(fold (BitVec.ofNat 32 a)) :=
  ⟨_, _, rfl, rfl, rfl⟩

theorem witness_SealedPacketVerifies :
    ∃ t u : State, (start 64 0).err = 0 ∧ exec .sealPkt (start 64 0) = .next t ∧ u.err = 0 ∧ 64 ≤ u.cfg.memBytes ∧
      u.bytes 0 64 = t.bytes 0 64 :=
  ⟨_, (start 64 0).answer (start 64 0).sealPkt, rfl, rfl, rfl, le_refl 64, rfl⟩

theorem witness_ReferencePacket : (start 64 0).err = 0 ∧ (start 64 0).cfg.ident = 0x0000 ∧ (start 64 0).seq = 0 := by decide

theorem witness_AssembledWordsDecode : (4095 < 4096 ∧ 255 < 256 ∧ 15 < 16) ∧ 4096 ≤ 4096 ∧ 256 ≤ 256 ∧ 16 ≤ 16 := by decide

end Sys2Proof.Tests
end

section
/-! SUPPORT. The step as the block's step function (00_scope.md R4, R5, R8), and what every step and every run keep. -/

namespace Sys2Proof.Machine

/-! The three outcomes of the block's step function. -/

section BlockStep

variable {b : Block} {w : Word}

/-- A halted block refuses the word and keeps its state (60_exceptions.md R143). -/
theorem Block.step_halted (cfg : Cfg) (h : b.err ≠ 0) : b.step cfg w = (b, ⟨0, 15⟩) :=
  Block.whenRunning_halted h _ _

/-- A word that is no command raises `E_ILLEGAL` (30_encoding.md R66). -/
theorem Block.step_illegal (cfg : Cfg) (h : b.err = 0) {why : IllegalWord} (hd : decode w = .error why) :
    b.step cfg w = b.takeFault .illegal w := by
  rw [Block.step, Block.whenRunning_running h, hd]

/-- A command word runs its command (30_encoding.md R65). -/
theorem Block.step_decoded (cfg : Cfg) (h : b.err = 0) {i : Instr} (hd : decode w = .ok i) :
    b.step cfg w = b.execute cfg i := by
  rw [Block.step, Block.whenRunning_running h, hd]

end BlockStep

/-! The step of the machine. -/

variable {s t : State}

/-- With no word to come the step idles (60_exceptions.md R152). -/
theorem step_of_cmds_nil (hc : s.cmds = []) : step s = .next s.idle := by
  obtain ⟨-, h⟩ | ⟨w, ws, hcons, -⟩ := step_cases s
  · exact h
  · simp [hc] at hcons

/-- With a word to come the step takes it and answers what the block's step function gives for it (00_scope.md R4). -/
theorem step_of_cmds_cons {w : Word} {ws : List Word} (hc : s.cmds = w :: ws) :
    step s = .next ({ s with cmds := ws }.answer (s.toBlock.step s.cfg w)) := by
  obtain ⟨hnil, -⟩ | ⟨w', ws', hcons, hstep⟩ := step_cases s
  · simp [hc] at hnil
  · obtain ⟨rfl, rfl⟩ : w = w' ∧ ws = ws' := List.cons.inj (hc.symm.trans hcons)
    obtain ⟨he, hs⟩ | ⟨he, why, hd, hs⟩ | ⟨he, i, hd, hs⟩ := hstep
    · rw [hs, Block.step_halted s.cfg he]
      rfl
    · rw [hs, Block.step_illegal s.cfg he hd]
      rfl
    · rw [hs, Block.step_decoded s.cfg he hd]
      exact exec_running (s := { s with cmds := ws }) he i

/-- A step is total, takes exactly the oldest word, answers exactly where there was one, and keeps the configuration. -/
theorem exists_step (s : State) :
    ∃ t, step s = .next t ∧ t.cmds = s.cmds.tail ∧ (t.rsp.isSome ↔ s.cmds ≠ []) ∧ t.cfg = s.cfg := by
  cases hc : s.cmds with
  | nil => exact ⟨_, step_of_cmds_nil hc, by simp [hc]⟩
  | cons w ws => exact ⟨_, step_of_cmds_cons hc, by simp⟩

theorem step_cfg (h : step s = .next t) : t.cfg = s.cfg := by
  obtain ⟨u, hu, -, -, hcfg⟩ := exists_step s
  obtain rfl : u = t := Host.Outcome.next.inj (hu.symm.trans h)
  exact hcfg

/-! The obligations. -/

/-- Settles O8, by the two equations of the step: idle, or the answer to the oldest word. -/
theorem stepTotalOneResponsePerWord : Obligations.StepTotalOneResponsePerWord := by
  intro s
  obtain ⟨t, hstep, hcmds, hrsp, -⟩ := exists_step s
  exact ⟨t, hstep, hcmds, hrsp⟩

/-- Settles O29. -/
theorem configurationNeverChanges : Obligations.ConfigurationNeverChanges :=
  fun _ _ => step_cfg

/-- Settles O52, by the equation of a step that takes a word. -/
theorem stepIsBlockStep : Obligations.StepIsBlockStep :=
  fun _ _ _ hc => ⟨_, step_of_cmds_cons hc, rfl, rfl, rfl⟩

/-- Settles O53, by induction on the words: the first step is the block's (O52), and it hands the configuration and the
words left to the rest of the run. -/
theorem runIsBlockSteps : Obligations.RunIsBlockSteps := by
  intro s ws
  induction ws generalizing s with
  | nil => exact fun hc => ⟨s, runs_nil.2 ⟨hc, rfl⟩, rfl, rfl, hc⟩
  | cons w ws ih =>
    intro hc
    obtain ⟨u, hstep, hblock, hcfg, hcmds⟩ := stepIsBlockStep s w ws hc
    obtain ⟨t, hruns, hfold, htcfg, htcmds⟩ := ih u hcmds
    have hu : u.toBlock = (s.toBlock.step s.cfg w).1 := congrArg Prod.fst hblock
    refine ⟨t, (runs_cons hc hstep hcmds).2 hruns, ?_, htcfg.trans hcfg, htcmds⟩
    rw [hfold, hcfg, hu, List.foldl_cons]

end Sys2Proof.Machine
end

section
/-! SUPPORT. What a command and a step can do to the block, said once: a fault of 60_exceptions.md R140, or the command's
effect; and what these keep of the block's state (10_state.md). -/

namespace Sys2Proof.Machine

/-! The outcome of a command: its fault, or its effect. -/

/-- The fault that a command raises in a machine of `n` memory bytes (60_exceptions.md R140), if any. -/
def faultOf (n : Nat) : Instr → Option FaultCode
  | .nop | .build | .sealPkt => none
  | .csum base len => if n < base.toNat + len.toNat then some .range else none
  | .ldb addr | .stb addr _ => if n ≤ addr.toNat then some .range else none
  | .rdreg reg => if 5 < reg.toNat then some .regnum else none

/-- What a command that raises no fault does, and its response. -/
def Block.effect (cfg : Cfg) (b : Block) : Instr → Block × Response
  | .nop => b.nop
  | .build => b.build cfg
  | .sealPkt => b.sealPkt
  | .csum base len => b.deliverChecksum (wordsum (b.bytes base.toNat len.toNat))
  | .ldb addr => b.respond ((b.byteAt addr.toNat).setWidth 32)
  | .stb addr data => (b.memWrite1 addr.toNat data).respond 0
  | .rdreg reg => b.respond (((regOfNum reg).map (b.readReg cfg)).getD 0)

/-- Register numbers 6 to 15 name no register (10_state.md R30). -/
theorem regOfNum_eq_none_iff (reg : RegNum) : regOfNum reg = none ↔ 5 < reg.toNat := by
  revert reg
  decide

variable {b c : Block} {cfg : Cfg} {i : Instr} {w : Word} {code : FaultCode}

/-- A command without a fault has its effect. -/
theorem Block.execute_of_no_fault (h : faultOf cfg.memBytes i = none) : b.execute cfg i = b.effect cfg i := by
  cases i with
  | nop | build | sealPkt => rfl
  | csum base len =>
    have hin : base.toNat + len.toNat ≤ cfg.memBytes := by simpa [faultOf] using h
    exact if_pos (decide_eq_true hin)
  | ldb addr | stb addr data =>
    have hin : addr.toNat < cfg.memBytes := by simpa [faultOf] using h
    exact if_pos (decide_eq_true hin)
  | rdreg reg =>
    have hreg : regOfNum reg ≠ none := by simpa [faultOf, regOfNum_eq_none_iff] using h
    obtain ⟨r, hr⟩ := Option.ne_none_iff_exists'.1 hreg
    simp [Block.execute, Block.rdreg, Block.effect, hr]

/-- A command with a fault takes the fault and does nothing else. -/
theorem Block.execute_of_fault (h : faultOf cfg.memBytes i = some code) :
    b.execute cfg i = b.takeFault code (encode i) := by
  cases i with
  | nop | build | sealPkt => cases h
  | csum base len =>
    obtain ⟨hout, rfl⟩ : cfg.memBytes < base.toNat + len.toNat ∧ FaultCode.range = code := by simpa [faultOf] using h
    exact if_neg (by simpa [rangeAdmitted] using hout)
  | ldb addr | stb addr data =>
    obtain ⟨hout, rfl⟩ : cfg.memBytes ≤ addr.toNat ∧ FaultCode.range = code := by simpa [faultOf] using h
    exact if_neg (by simpa [addrAdmitted] using hout)
  | rdreg reg =>
    obtain ⟨hreg, rfl⟩ : 5 < reg.toNat ∧ FaultCode.regnum = code := by simpa [faultOf] using h
    simp [Block.execute, Block.rdreg, (regOfNum_eq_none_iff reg).2 hreg]

/-- The causes of 60_exceptions.md R140 for a command word. -/
theorem causesFault_of_decode {n : Nat} (hd : decode w = .ok i) : CausesFault n w code ↔ faultOf n i = some code := by
  unfold CausesFault
  rw [hd]
  cases i <;> simp [faultOf, eq_comm]

theorem causesFault_of_illegal {n : Nat} {why : IllegalWord} (hd : decode w = .error why) :
    CausesFault n w code ↔ code = .illegal := by
  unfold CausesFault
  rw [hd]

theorem faultOf_latched {n : Nat} (h : faultOf n i = some code) : code.latched = true := by
  cases i with
  | nop | build | sealPkt => cases h
  | csum base len | ldb addr | stb addr data | rdreg reg =>
    obtain ⟨-, hcode⟩ := Option.ite_none_right_eq_some.1 h
    cases hcode
    rfl

/-- Every fault a word causes is one of the latched three. -/
theorem CausesFault.latched {n : Nat} (h : CausesFault n w code) : code.latched = true := by
  cases hd : decode w with
  | error why => rw [(causesFault_of_illegal hd).1 h]; rfl
  | ok i => exact faultOf_latched ((causesFault_of_decode hd).1 h)

/-- Taking a fault that a word causes latches its code. -/
theorem CausesFault.takeFault_err {n : Nat} (h : CausesFault n w code) (v : Word) :
    (b.takeFault code v).1.err = code.bits := by simp [h.latched]

/-- A command that leaves `STATUS.ERR` zero raised no fault. -/
theorem faultOf_eq_none_of_err (h : (b.execute cfg i).1.err = 0) : faultOf cfg.memBytes i = none := by
  cases hf : faultOf cfg.memBytes i with
  | none => rfl
  | some code =>
    rw [Block.execute_of_fault hf, Block.takeFault_err, if_pos (faultOf_latched hf)] at h
    exact absurd h code.bits_ne_zero

/-- Everything the block's step can do: refuse the word while halted, take the fault the word causes, or have the effect of
the command it decodes to. -/
theorem Block.step_cases (cfg : Cfg) (b : Block) (w : Word) :
    (b.err ≠ 0 ∧ b.step cfg w = (b, ⟨0, 15⟩)) ∨
    (b.err = 0 ∧ ∃ code v, CausesFault cfg.memBytes w code ∧ b.step cfg w = b.takeFault code v) ∨
    (b.err = 0 ∧ ∃ i, decode w = .ok i ∧ faultOf cfg.memBytes i = none ∧ b.step cfg w = b.effect cfg i) := by
  by_cases he : b.err = 0
  · cases hd : decode w with
    | error why => exact .inr (.inl ⟨he, _, _, (causesFault_of_illegal hd).2 rfl, Block.step_illegal cfg he hd⟩)
    | ok i =>
      have hstep := Block.step_decoded cfg he hd
      cases hf : faultOf cfg.memBytes i with
      | none => exact .inr (.inr ⟨he, i, rfl, hf, hstep.trans (Block.execute_of_no_fault hf)⟩)
      | some code =>
        exact .inr (.inl ⟨he, code, _, (causesFault_of_decode hd).2 hf, hstep.trans (Block.execute_of_fault hf)⟩)
  · exact .inl ⟨he, Block.step_halted cfg he⟩

/-- A command that ends without a fault has its effect. -/
theorem exec_effect {s t : State} (he : s.err = 0) (hexec : exec i s = .next t) (hok : t.err = 0) :
    t = s.answer (s.toBlock.effect s.cfg i) := by
  obtain rfl := Host.Outcome.next.inj ((exec_running he i).symm.trans hexec)
  rw [Block.execute_of_no_fault (faultOf_eq_none_of_err hok)]

/-! The frames of the effects. -/

@[simp] theorem Block.nop_block : b.nop.1 = b := rfl

@[simp] theorem Block.build_block : (b.build cfg).1 = (b.writePacket cfg).advanceSeq := rfl

@[simp] theorem Block.build_response : (b.build cfg).2 = ⟨b.seq.setWidth 32, 0⟩ := rfl

@[simp] theorem Block.sealPkt_seq : b.sealPkt.1.seq = b.seq := rfl

@[simp] theorem Block.sealPkt_acc : b.sealPkt.1.acc = b.sealSum := rfl

@[simp] theorem Block.sealPkt_result : b.sealPkt.1.result = ~~~(fold b.sealSum) := rfl

@[simp] theorem Block.sealPkt_z : b.sealPkt.1.z = zeroFlag (~~~(fold b.sealSum)) := rfl

@[simp] theorem Block.sealPkt_err : b.sealPkt.1.err = b.err := rfl

@[simp] theorem Block.sealPkt_response : b.sealPkt.2 = ⟨(~~~(fold b.sealSum)).setWidth 32, 0⟩ := rfl

theorem Block.memFill_eq (base : Nat) (v : Byte) (n : Nat) :
    b.memFill base v n = { b with mem := (b.memFill base v n).mem } := by
  induction n with
  | zero => rfl
  | succ n ih => exact congrArg (·.setByte (base + n) v) ih

/-- The writes of `BUILD` to `MEM` change nothing else. -/
theorem Block.writePacket_eq : b.writePacket cfg = { b with mem := (b.writePacket cfg).mem } := by
  unfold Block.writePacket
  rw [Block.memFill_eq]
  generalize (b.memFill 0 0x00 Config.pktBytes).mem = m
  rfl

@[simp] theorem Block.effect_err : (b.effect cfg i).1.err = b.err := by cases i <;> simp [Block.effect]

/-- `BUILD` alone advances `SEQ` (41_packet_builder.md R103). -/
theorem Block.effect_seq : (b.effect cfg i).1.seq = if i = .build then nextSeq b.seq else b.seq := by
  cases i <;> simp [Block.effect]

/-- `BUILD` changes `MEM` and `SEQ` alone. -/
theorem Block.build_eq :
    b.build cfg =
      ({ b with mem := (b.writePacket cfg).mem, seq := nextSeq b.seq }, ⟨b.seq.setWidth 32, 0⟩) := by
  rw [Block.build, Block.writePacket_eq]
  generalize (b.writePacket cfg).mem = m
  rfl

/-- `BUILD` writes no byte outside the packet buffer. -/
theorem Block.byteAt_build_outside {x : Nat} (hx : 64 ≤ x) : (b.build cfg).1.byteAt x = b.byteAt x := by
  simp (disch := omega) only [Block.build_block, Block.byteAt_advanceSeq, Block.byteAt_writePacket, if_neg]

/-- Every byte after `SEAL`: the checksum field alone is written (41_packet_builder.md R104). -/
theorem Block.byteAt_sealPkt (x : Nat) :
    b.sealPkt.1.byteAt x =
      if x = 2 then hiByte (~~~(fold b.sealSum)) else if x = 3 then loByte (~~~(fold b.sealSum)) else b.byteAt x := by
  simp only [Block.sealPkt, Block.byteAt_deliverChecksum, Block.byteAt_memWrite2, Block.byteAt_clearChecksum,
    Config.offChecksum]
  by_cases h2 : x = 2
  · simp only [h2, if_true]
  · by_cases h3 : x = 3
    · simp [h3]
    · simp [h2, h3]

/-! Two blocks that agree on what a command reads (10_state.md R34). -/

/-- A fault answers the same in every block, so only the effects' responses have to agree. -/
theorem Block.execute_response_congr (h : (b.effect cfg i).2 = (c.effect cfg i).2) :
    (b.execute cfg i).2 = (c.execute cfg i).2 := by
  cases hf : faultOf cfg.memBytes i with
  | none => rw [Block.execute_of_no_fault hf, Block.execute_of_no_fault hf, h]
  | some code => rw [Block.execute_of_fault hf, Block.execute_of_fault hf, Block.takeFault_response,
      Block.takeFault_response]

/-- `BUILD` reads `SEQ` and the configuration. -/
theorem Block.byteAt_build_congr (h : b.seq = c.seq) {x : Nat} (hx : x < 64) :
    (b.build cfg).1.byteAt x = (c.build cfg).1.byteAt x := by
  simp only [Block.build_block, Block.byteAt_advanceSeq, Block.byteAt_writePacket, h, hx, if_true]

/-- `SEAL` does not read the checksum field. -/
theorem Block.sealSum_congr (h : ∀ a, a < 64 → a ≠ 2 → a ≠ 3 → b.byteAt a = c.byteAt a) :
    b.sealSum = c.sealSum := by
  refine congrArg wordsum (Block.bytes_congr fun a ha => ?_)
  rw [Nat.zero_add, Block.byteAt_clearChecksum, Block.byteAt_clearChecksum]
  split_ifs with hfield
  · rfl
  · exact h a ha (fun h2 => hfield (.inl h2)) (fun h3 => hfield (.inr h3))

/-- `CSUM` reads its range. -/
theorem Block.bytes_congr_range {base len : Nat} (h : ∀ a, base ≤ a → a < base + len → b.byteAt a = c.byteAt a) :
    b.bytes base len = c.bytes base len :=
  Block.bytes_congr fun j hj => h (base + j) (by omega) (by omega)

/-! `STATUS` (10_state.md R26). -/

theorem zeroFlag_iff (v : Half) : zeroFlag v = true ↔ v = 0x0000 := beq_iff_eq

theorem Block.statusView_halt (b : Block) : b.statusView.getLsbD 0 = b.halted := by
  simp only [Block.statusView, BitVec.getLsbD_append]
  simp

theorem Block.statusView_z (b : Block) : b.statusView.getLsbD 1 = b.z := by
  simp only [Block.statusView, BitVec.getLsbD_append]
  simp

theorem Block.statusView_err (b : Block) : b.statusView.extractLsb' 4 4 = b.err := by
  simp (disch := decide) only [Block.statusView, BitVec.extractLsb'_append_eq_of_le,
    BitVec.extractLsb'_append_eq_of_add_le]
  exact BitVec.extractLsb'_eq_self

/-- The bits between `Z` and `ERR` are reserved. -/
theorem Block.statusView_reserved_low (b : Block) : b.statusView.extractLsb' 2 2 = 0 := by
  simp (disch := decide) only [Block.statusView, BitVec.extractLsb'_append_eq_of_le,
    BitVec.extractLsb'_append_eq_of_add_le]
  rfl

/-- The bits above `ERR` are reserved. -/
theorem Block.statusView_reserved_high (b : Block) : b.statusView.extractLsb' 8 24 = 0 := by
  simp (disch := decide) only [Block.statusView, BitVec.extractLsb'_append_eq_of_le]
  rfl

/-- A step changes `STATUS.ERR` only by a fault that the word causes. -/
theorem Block.step_err (cfg : Cfg) (b : Block) (w : Word) :
    (b.step cfg w).1.err = b.err ∨
    b.err = 0 ∧ ∃ code, CausesFault cfg.memBytes w code ∧ (b.step cfg w).1.err = code.bits := by
  obtain ⟨-, hs⟩ | ⟨he, code, v, hcause, hs⟩ | ⟨-, i, -, -, hs⟩ := Block.step_cases cfg b w <;> rw [hs]
  · exact .inl rfl
  · exact .inr ⟨he, code, hcause, hcause.takeFault_err v⟩
  · exact .inl Block.effect_err

/-! `SEQ`. -/

/-- The counter wraps (41_packet_builder.md R103). -/
theorem toNat_nextSeq (v : Half) : (nextSeq v).toNat = (v.toNat + 1) % 65536 := BitVec.toNat_add v 1

/-- A row without operands has one word. -/
theorem matchesRow_allOnes {pattern : Word} : matchesRow w 0xFFFFFFFF pattern = true ↔ w = pattern := by
  rw [matchesRow, show (0xFFFFFFFF : Word) = BitVec.allOnes 32 from rfl, BitVec.and_allOnes, beq_iff_eq]

/-- The one word of `BUILD` (30_encoding.md R64). -/
theorem decode_eq_build_iff : decode w = .ok .build ↔ w = 0x01000000 := by
  constructor
  · intro h
    unfold decode at h
    split_ifs at h with _ hbuild <;> cases h
    exact matchesRow_allOnes.1 hbuild
  · rintro rfl
    rfl

/-- `SEQ` after a step (10_state.md R22): one more exactly when the word `BUILD` is executed. -/
theorem Block.step_seq (cfg : Cfg) (b : Block) (w : Word) :
    (b.step cfg w).1.seq = if b.err = 0 ∧ w = 0x01000000 then nextSeq b.seq else b.seq := by
  obtain ⟨he, hs⟩ | ⟨-, code, v, hcause, hs⟩ | ⟨he, i, hd, -, hs⟩ := Block.step_cases cfg b w
  · rw [hs, if_neg fun h => he h.1]
  · have hw : w ≠ 0x01000000 := by
      intro hw
      have hf := (causesFault_of_decode (decode_eq_build_iff.2 hw)).1 hcause
      cases hf
    rw [hs, if_neg fun h => hw h.2, Block.takeFault_seq]
  · have hw : i = .build ↔ w = 0x01000000 := by rw [← decode_eq_build_iff, hd, Except.ok.injEq]
    simp only [hs, Block.effect_seq, hw, he, true_and]

/-! Runs of the block. -/

/-- The block after the words `ws`. -/
def Block.stepAll (cfg : Cfg) (b : Block) (ws : List Word) : Block := ws.foldl (fun b w => (b.step cfg w).1) b

@[simp] theorem Block.stepAll_nil : b.stepAll cfg [] = b := rfl

@[simp] theorem Block.stepAll_cons (w : Word) (ws : List Word) :
    b.stepAll cfg (w :: ws) = (b.step cfg w).1.stepAll cfg ws := rfl

/-- A run ends in the block after its words (00_scope.md R8). -/
theorem runs_toBlock {s t : State} {ws : List Word} (h : Runs s ws t) : t.toBlock = s.toBlock.stepAll s.cfg ws := by
  obtain ⟨hc, hrun⟩ := h
  obtain ⟨u, ⟨-, hrun'⟩, hblock, -⟩ := runIsBlockSteps s ws hc
  obtain rfl : u = t := Host.Outcome.next.inj (hrun'.symm.trans hrun)
  exact hblock

/-- No word changes a halted block (60_exceptions.md R143). -/
theorem Block.stepAll_halted (h : b.err ≠ 0) (ws : List Word) : b.stepAll cfg ws = b := by
  induction ws with
  | nil => rfl
  | cons w ws ih => rw [Block.stepAll_cons, Block.step_halted cfg h, ih]

/-- A block that is running in the end was running from the start. -/
theorem Block.err_of_stepAll {ws : List Word} (h : (b.stepAll cfg ws).err = 0) : b.err = 0 := by
  by_contra he
  rw [Block.stepAll_halted he] at h
  exact he h

theorem Block.stepAll_seq {ws : List Word} (h : (b.stepAll cfg ws).err = 0) :
    (b.stepAll cfg ws).seq.toNat = (b.seq.toNat + ws.count 0x01000000) % 65536 := by
  induction ws generalizing b with
  | nil => simp [Nat.mod_eq_of_lt b.seq.isLt]
  | cons w ws ih =>
    have he : b.err = 0 := Block.err_of_stepAll h
    rw [Block.stepAll_cons] at h ⊢
    rw [ih h, Block.step_seq, List.count_cons]
    by_cases hw : w = 0x01000000
    · rw [if_pos ⟨he, hw⟩, if_pos (beq_iff_eq.2 hw), toNat_nextSeq]
      omega
    · rw [if_neg fun h => hw h.2, if_neg (mt beq_iff_eq.1 hw), Nat.add_zero]

/-! Memory inside `MEM`. -/

/-- The list is canonical and every address in it is below `n` (10_state.md R21). -/
structure Memory.Within (n : Nat) (m : Memory) : Prop where
  sorted : m.wf
  inside : ∀ cell ∈ m, cell.1 < n

theorem State.memoryOk_iff {s : State} : s.MemoryOk ↔ s.cfg.Legal ∧ Memory.Within s.cfg.memBytes s.mem :=
  ⟨fun ⟨hl, hs, hi⟩ => ⟨hl, hs, hi⟩, fun ⟨hl, hs, hi⟩ => ⟨hl, hs, hi⟩⟩

variable {n : Nat}

theorem Memory.Within.put {m : Memory} (h : Memory.Within n m) {a : Nat} (ha : a < n) (v : Byte) :
    Memory.Within n (m.put a v) where
  sorted := Memory.put_wf h.sorted a v
  inside cell hc := by
    obtain rfl | hm := Memory.mem_put hc
    · exact ha
    · exact h.inside cell hm

theorem Block.memWrite1_within (h : Memory.Within n b.mem) {a : Nat} (ha : a < n) (v : Byte) :
    Memory.Within n (b.memWrite1 a v).mem := h.put ha v

theorem Block.memWrite2_within (h : Memory.Within n b.mem) {a : Nat} (ha : a + 1 < n) (v : Half) :
    Memory.Within n (b.memWrite2 a v).mem := (h.put (Nat.lt_of_succ_lt ha) _).put ha _

theorem Block.memFill_within (h : Memory.Within n b.mem) {base len : Nat} (hlen : base + len ≤ n) (v : Byte) :
    Memory.Within n (b.memFill base v len).mem := by
  induction len with
  | zero => exact h
  | succ len ih => exact (ih (by omega)).put (by omega) v

/-- `BUILD` writes inside the packet buffer, which a legal `MEM` holds (00_scope.md R10). -/
theorem Block.writePacket_within (h : Memory.Within n b.mem) (hn : 64 ≤ n) :
    Memory.Within n (b.writePacket cfg).mem := by
  have hin (a : Nat) (ha : a < 64) : a < n := Nat.lt_of_lt_of_le ha hn
  have hfill := Block.memFill_within h (base := 0) (len := Config.pktBytes) (by simpa using hn) 0x00
  have htype := Block.memWrite1_within hfill (hin Config.offType (by decide)) Config.icmpEchoRequest
  have hcode := Block.memWrite1_within htype (hin Config.offCode (by decide)) Config.icmpCode
  have hsum := Block.memWrite2_within hcode (hin (Config.offChecksum + 1) (by decide)) 0x0000
  have hident := Block.memWrite2_within hsum (hin (Config.offIdentifier + 1) (by decide)) cfg.ident
  exact Block.memWrite2_within hident (hin (Config.offSequence + 1) (by decide)) b.seq

/-- `SEAL` writes inside the packet buffer. -/
theorem Block.sealPkt_within (h : Memory.Within n b.mem) (hn : 64 ≤ n) : Memory.Within n b.sealPkt.1.mem := by
  have hfield : Config.offChecksum + 1 < n := Nat.lt_of_lt_of_le (by decide) hn
  rw [Block.sealPkt, Block.deliverChecksum_mem]
  exact Block.memWrite2_within (Block.memWrite2_within h hfield 0x0000) hfield _

theorem Block.effect_within (h : Memory.Within cfg.memBytes b.mem) (hn : 64 ≤ cfg.memBytes)
    (hf : faultOf cfg.memBytes i = none) : Memory.Within cfg.memBytes (b.effect cfg i).1.mem := by
  cases i with
  | nop | csum base len | ldb addr | rdreg reg => exact h
  | build =>
    rw [Block.effect, Block.build_block, Block.advanceSeq_mem]
    exact Block.writePacket_within h hn
  | sealPkt => exact Block.sealPkt_within h hn
  | stb addr data =>
    have ha : addr.toNat < cfg.memBytes := by simpa [faultOf] using hf
    exact h.put ha data

theorem Block.step_within (h : Memory.Within cfg.memBytes b.mem) (hn : 64 ≤ cfg.memBytes) (w : Word) :
    Memory.Within cfg.memBytes (b.step cfg w).1.mem := by
  obtain ⟨-, hs⟩ | ⟨-, code, v, -, hs⟩ | ⟨-, i, -, hf, hs⟩ := Block.step_cases cfg b w <;> rw [hs]
  · exact h
  · exact h
  · exact Block.effect_within h hn hf

/-- A step of the machine keeps the block where there is no word, and is the block's step over the oldest word. -/
theorem step_toBlock_cases {s t : State} (h : step s = .next t) :
    t.toBlock = s.toBlock ∨ ∃ w ws, s.cmds = w :: ws ∧ t.toBlock = (s.toBlock.step s.cfg w).1 := by
  cases hc : s.cmds with
  | nil =>
    obtain rfl := Host.Outcome.next.inj ((step_of_cmds_nil hc).symm.trans h)
    exact .inl rfl
  | cons w ws =>
    obtain rfl := Host.Outcome.next.inj ((step_of_cmds_cons hc).symm.trans h)
    exact .inr ⟨w, ws, rfl, rfl⟩

/-! The obligations of 10_state.md. -/

/-- Settles O28, by induction on the words over the block's step equation for `SEQ`; a run that is not halted at its end
was halted nowhere. -/
theorem seqCountsBuilds : Obligations.SeqCountsBuilds := by
  intro s t ws hruns hgood
  have hblock := runs_toBlock hruns
  have herr : t.err = 0 := not_not.1 hgood
  rw [hblock] at herr ⊢
  exact Block.stepAll_seq herr

/-- Settles O33: a command writes only inside an admitted address or the packet buffer. -/
theorem stepKeepsMemoryOk : Obligations.StepKeepsMemoryOk := by
  intro s t hok hstep
  obtain ⟨hlegal, hmem⟩ := State.memoryOk_iff.1 hok
  rw [State.memoryOk_iff, step_cfg hstep]
  refine ⟨hlegal, ?_⟩
  obtain hblock | ⟨w, -, -, hblock⟩ := step_toBlock_cases hstep <;> rw [hblock]
  · exact hmem
  · exact Block.step_within hmem hlegal.1 w

/-- Settles O20: a command that ends without a fault had its effect, and each effect's frame is read off. -/
theorem writeSets : Obligations.WriteSets := by
  intro i s t he hexec hok
  rw [exec_effect he hexec hok]
  cases i with
  | nop | csum base len | ldb addr | rdreg reg => rfl
  | build =>
    rw [Block.effect]
    refine ⟨?_, fun a ha => Block.byteAt_build_outside ha⟩
    rw [Block.build_eq]
    generalize (s.writePacket s.cfg).mem = m
    rfl
  | sealPkt => exact ⟨rfl, fun a h2 h3 => (Block.byteAt_sealPkt a).trans ((if_neg h2).trans (if_neg h3))⟩
  | stb addr data => exact ⟨rfl, fun a ha => (Block.byteAt_memWrite1 _ _ _ a).trans (if_neg ha)⟩

/-- Settles O21: a fault answers the same in every state, and each effect is a function of the command's read set. -/
theorem readSets : Obligations.ReadSets := by
  intro i s t s' t' hs ht hcfg hs' ht'
  obtain rfl := Host.Outcome.next.inj ((exec_running hs i).symm.trans hs')
  obtain rfl := Host.Outcome.next.inj ((exec_running ht i).symm.trans ht')
  rw [← hcfg]
  have hrsp (h : (s.toBlock.effect s.cfg i).2 = (t.toBlock.effect s.cfg i).2) :=
    congrArg some (Block.execute_response_congr h)
  cases i with
  | nop => exact hrsp rfl
  | build =>
    intro hseq
    exact ⟨hrsp (by simp [Block.effect, hseq]), by simp [Block.execute, hseq],
      fun a ha => Block.byteAt_build_congr hseq ha⟩
  | sealPkt =>
    intro hbytes
    have hsum := Block.sealSum_congr hbytes
    simp [Block.execute, Block.byteAt_sealPkt, hsum]
  | csum base len =>
    intro hbytes
    have hrange := Block.bytes_congr_range hbytes
    refine ⟨hrsp (by simp [Block.effect, hrange]), fun hok => ?_⟩
    have hf := faultOf_eq_none_of_err hok
    simp [Block.execute_of_no_fault hf, Block.effect, hrange]
  | ldb addr =>
    intro hbyte
    exact hrsp (by simp [Block.effect, hbyte])
  | stb addr data =>
    refine ⟨hrsp rfl, fun hok => ?_⟩
    have hf := faultOf_eq_none_of_err hok
    simp [Block.execute_of_no_fault hf, Block.effect, Block.byteAt_memWrite1]
  | rdreg reg =>
    intro hreg
    have hread : (regOfNum reg).map (s.readReg s.cfg) = (regOfNum reg).map (t.readReg s.cfg) :=
      Option.map_congr fun r hr => hreg r hr
    exact hrsp (by simp [Block.effect, hread])

/-- Settles O26: the bits of the view, `Z` by the effects of the commands, and `ERR` by the block's step. -/
theorem statusRegister : Obligations.StatusRegister := by
  refine ⟨fun s => ?_, fun i s t he hexec hok => ?_, fun s t hstep hne => ?_⟩
  · refine ⟨?_, s.statusView_z, s.statusView_reserved_low, s.statusView_err, s.statusView_reserved_high⟩
    rw [Block.statusView_halt, Block.halted_iff]
  · rw [exec_effect he hexec hok]
    cases i with
    | nop | ldb addr | rdreg reg | stb addr data => rfl
    | build => rw [State.answer_toBlock, Block.effect, Block.build_block, Block.advanceSeq_z, Block.writePacket_z]
    | csum base len | sealPkt => exact zeroFlag_iff _
  · obtain hblock | ⟨w, ws, hc, hblock⟩ := step_toBlock_cases hstep
    · exact absurd (congrArg Block.err hblock) hne
    · rw [hblock] at hne ⊢
      obtain hkeep | ⟨he, code, hcause, herr⟩ := Block.step_err s.cfg s.toBlock w
      · exact absurd hkeep hne
      · exact ⟨he, w, ws, code, hc, hcause, herr⟩

/-- Settles O30: the values of the reset state as it is defined (10_state.md R31). -/
theorem resetValues : Obligations.ResetValues := ⟨rfl, rfl, rfl, rfl, rfl, rfl, rfl, fun _ => rfl⟩

/-- Reset clears both fault registers (70_reset_and_hazards.md R160). -/
theorem State.assertReset_faultRecordOk (s : State) (contents : Memory) : (s.assertReset contents).FaultRecordOk :=
  .inl ⟨rfl, rfl⟩

/-- Settles O32: the fault registers are zero, and the memory is empty or the canonical contents of the reset port. -/
theorem invariantsAtReset : Obligations.InvariantsAtReset := by
  refine ⟨⟨by decide, List.Pairwise.nil, by simp [State.reset, Block.reset]⟩, .inl ⟨rfl, rfl⟩, ?_⟩
  intro s contents hlegal hwf hinside
  exact ⟨⟨hlegal, hwf, hinside⟩, s.assertReset_faultRecordOk contents⟩

end Sys2Proof.Machine
end

section
/-! SUPPORT. Memory access (20_memory.md): the fault code a command latches, reads after writes, and the bytes a command
leaves alone over a step and over a run. -/

namespace Sys2Proof.Machine

variable {b : Block} {cfg : Cfg} {i : Instr} {w : Word}

/-! The fault code that a command latches. -/

/-- A command in a running block latches a code exactly when that is the fault it raises (60_exceptions.md R140, R142). -/
theorem Block.execute_err_eq_bits_iff (h : b.err = 0) (code : FaultCode) :
    (b.execute cfg i).1.err = code.bits ↔ faultOf cfg.memBytes i = some code := by
  cases hf : faultOf cfg.memBytes i with
  | none =>
    rw [Block.execute_of_no_fault hf, Block.effect_err, h]
    exact ⟨fun hzero => absurd hzero.symm code.bits_ne_zero, nofun⟩
  | some raised =>
    rw [Block.execute_of_fault hf, Block.takeFault_err, if_pos (faultOf_latched hf), Option.some.injEq]
    exact ⟨FaultCode.bits_injective, congrArg FaultCode.bits⟩

theorem exec_err_eq_bits_iff {s t : State} (he : s.err = 0) (hexec : exec i s = .next t) (code : FaultCode) :
    t.err = code.bits ↔ faultOf s.cfg.memBytes i = some code := by
  obtain rfl := Host.Outcome.next.inj ((exec_running he i).symm.trans hexec)
  exact Block.execute_err_eq_bits_iff he code

/-- A command that raises no fault leaves a running machine running. -/
theorem exec_err_of_no_fault {s t : State} (he : s.err = 0) (hexec : exec i s = .next t)
    (hf : faultOf s.cfg.memBytes i = none) : t.err = 0 := by
  obtain rfl := Host.Outcome.next.inj ((exec_running he i).symm.trans hexec)
  rw [State.answer_toBlock, Block.execute_of_no_fault hf, Block.effect_err, he]

/-! Reads after writes (20_memory.md R55, R56). -/

@[simp] theorem Block.memRead1_memWrite1 (b : Block) (addr : Nat) (v : Byte) :
    (b.memWrite1 addr v).memRead1 addr = v := (b.byteAt_memWrite1 addr v addr).trans (if_pos rfl)

/-- The high byte goes to the lower address. -/
theorem Block.byteAt_memWrite2_hi (b : Block) (addr : Nat) (v : Half) :
    (b.memWrite2 addr v).byteAt addr = hiByte v := (b.byteAt_memWrite2 addr v addr).trans (if_pos rfl)

/-- The low byte goes to the higher address. -/
theorem Block.byteAt_memWrite2_lo (b : Block) (addr : Nat) (v : Half) :
    (b.memWrite2 addr v).byteAt (addr + 1) = loByte v := by
  rw [Block.byteAt_memWrite2, if_neg (Nat.succ_ne_self addr), if_pos rfl]

@[simp] theorem Block.memRead2_memWrite2 (b : Block) (addr : Nat) (v : Half) :
    (b.memWrite2 addr v).memRead2 addr = v := by
  rw [Block.memRead2, Block.byteAt_memWrite2_hi, Block.byteAt_memWrite2_lo, joinBytes_hi_lo]

/-! Bytes that no word writes (20_memory.md R50). -/

/-- The command does not write the byte at `a` (10_state.md R34): `BUILD` writes the packet buffer, `SEAL` the checksum
field and `STB` the byte at its address. -/
def LeavesByte (a : Nat) : Instr → Prop
  | .build => 64 ≤ a
  | .sealPkt => a ≠ 2 ∧ a ≠ 3
  | .stb addr _ => addr.toNat ≠ a
  | .nop | .csum _ _ | .ldb _ | .rdreg _ => True

theorem Block.byteAt_effect {a : Nat} (h : LeavesByte a i) : (b.effect cfg i).1.byteAt a = b.byteAt a := by
  cases i with
  | nop | csum base len | ldb addr | rdreg reg => rfl
  | build => exact Block.byteAt_build_outside h
  | sealPkt => exact (Block.byteAt_sealPkt a).trans ((if_neg h.1).trans (if_neg h.2))
  | stb addr data => exact (b.byteAt_memWrite1 _ _ a).trans (if_neg (Ne.symm h))

/-- A word changes no byte but those its command writes: a refused or faulting word changes none. -/
theorem Block.byteAt_step {a : Nat} (h : ∀ i, decode w = .ok i → LeavesByte a i) :
    (b.step cfg w).1.byteAt a = b.byteAt a := by
  obtain ⟨-, hs⟩ | ⟨-, code, v, -, hs⟩ | ⟨-, i, hd, -, hs⟩ := Block.step_cases cfg b w <;> rw [hs]
  · exact Block.byteAt_takeFault b code v a
  · exact Block.byteAt_effect (h i hd)

theorem Block.byteAt_stepAll {a : Nat} {ws : List Word} (h : ∀ w ∈ ws, ∀ i, decode w = .ok i → LeavesByte a i) :
    (b.stepAll cfg ws).byteAt a = b.byteAt a := by
  induction ws generalizing b with
  | nil => rfl
  | cons w ws ih =>
    obtain ⟨hw, hws⟩ := List.forall_mem_cons.1 h
    rw [Block.stepAll_cons, ih hws, Block.byteAt_step hw]

/-! The obligations of 20_memory.md. -/

/-- Settles O36, by induction on the words of the run: each step keeps the byte. -/
theorem unwrittenByteStable : Obligations.UnwrittenByteStable := by
  intro s t ws a hruns hws
  rw [runs_toBlock hruns]
  refine Block.byteAt_stepAll fun w hw i hd => ?_
  have hleaves := hws w hw
  rw [hd] at hleaves
  cases i <;> exact hleaves

/-- Settles O22: the code latched is that of the fault the command raises. -/
theorem rangeFaultExactly : Obligations.RangeFaultExactly := by
  intro s he
  refine ⟨fun addr t hexec => ?_, fun addr data t hexec => ?_, fun base len t hexec => ?_, fun t hexec => ?_,
    fun t hexec => ?_⟩
  · exact (exec_err_eq_bits_iff he hexec .range).trans (by simp [faultOf])
  · exact (exec_err_eq_bits_iff he hexec .range).trans (by simp [faultOf])
  · exact (exec_err_eq_bits_iff he hexec .range).trans (by simp [faultOf])
  · exact exec_err_of_no_fault he hexec rfl
  · exact exec_err_of_no_fault he hexec rfl

/-- Settles O35: the bytes after each write, and the two bytes of a value joined again. -/
theorem memReadAfterMemWrite : Obligations.MemReadAfterMemWrite := by
  intro s addr
  refine ⟨toNat_joinBytes _ _, fun v => ⟨s.memRead1_memWrite1 addr v, fun a ha => ?_⟩,
    fun v => ⟨s.memRead2_memWrite2 addr v, s.byteAt_memWrite2_hi addr v, s.byteAt_memWrite2_lo addr v,
      fun a hhi hlo => ?_⟩⟩
  · rw [Block.byteAt_memWrite1, if_neg ha]
  · rw [Block.byteAt_memWrite2, if_neg hhi, if_neg hlo]

end Sys2Proof.Machine
end

section
/-! SUPPORT. Encoding (30_encoding.md): the one walk through the decoder's rows, the command word as a number, and from
these that decoding and encoding are inverse; the step over a word that faults; the assembler. -/

namespace Sys2Proof.Machine

variable {w : Word} {i j : Instr} {code : FaultCode}

/-! The rows of the opcode table (R64). -/

/-- The word lies in the row of the command `i`; the operands of `i` play no part. -/
abbrev InRow (w : Word) (i : Instr) : Prop := matchesRow w (maskOf i) (patternOf i) = true

theorem inRow_iff : InRow w i ↔ w &&& maskOf i = patternOf i := beq_iff_eq

theorem inRow_encode (i : Instr) : InRow (encode i) i := inRow_iff.2 (encode_and_mask i)

/-- A word has the opcode of its row, so it lies in one row at most. -/
theorem InRow.opField_eq (h : InRow w i) : opField w = opcodeOf i := by
  have hmask : opField (maskOf i) = 0xFF := by cases i <;> (rw [maskOf]; rfl)
  have hpattern : opField (patternOf i) = opcodeOf i := by cases i <;> (rw [patternOf]; rfl)
  rw [opField_of_matchesRow h hmask, hpattern]

/-- The command of `i`'s row with its operands read out of the word (R63). -/
def withFields (w : Word) : Instr → Instr
  | .nop => .nop
  | .build => .build
  | .sealPkt => .sealPkt
  | .csum _ _ => .csum (addrField w) (lenField w)
  | .ldb _ => .ldb (addrField w)
  | .stb _ _ => .stb (addrField w) (dataField w)
  | .rdreg _ => .rdreg (regField w)

theorem withFields_encode (i : Instr) : withFields (encode i) i = i := by
  cases i with
  | nop | build | sealPkt => rfl
  | csum base len => rw [withFields, addrField_csum, lenField_csum]
  | ldb addr => rw [withFields, addrField_ldb]
  | stb addr data => rw [withFields, addrField_stb, dataField_stb]
  | rdreg reg => rw [withFields, regField_rdreg]

/-- Commands of one opcode are of one row. -/
theorem withFields_congr (w : Word) (h : opcodeOf i = opcodeOf j) : withFields w i = withFields w j := by
  cases i <;> cases j <;> simp_all [opcodeOf, withFields]

/-- What the decoder answers: the command of a row the word lies in, or a reason where it lies in none. -/
theorem decode_cases (w : Word) :
    (∃ i, InRow w i ∧ decode w = .ok (withFields w i)) ∨ ((∀ i, ¬ InRow w i) ∧ ∃ why, decode w = .error why) := by
  unfold decode
  split_ifs with hnop hbuild hseal hcsum hldb hstb hrdreg
  · exact .inl ⟨.nop, hnop, rfl⟩
  · exact .inl ⟨.build, hbuild, rfl⟩
  · exact .inl ⟨.sealPkt, hseal, rfl⟩
  · exact .inl ⟨.csum 0 0, hcsum, rfl⟩
  · exact .inl ⟨.ldb 0, hldb, rfl⟩
  · exact .inl ⟨.stb 0 0, hstb, rfl⟩
  · exact .inl ⟨.rdreg 0, hrdreg, rfl⟩
  · exact .inr ⟨fun i => by cases i <;> assumption, _, rfl⟩

/-- A word of a row decodes to the row's command with the word's own operands. -/
theorem InRow.decode_eq (h : InRow w i) : decode w = .ok (withFields w i) := by
  obtain ⟨j, hj, hd⟩ | ⟨hnone, -⟩ := decode_cases w
  · rw [hd, withFields_congr w (hj.opField_eq.symm.trans h.opField_eq)]
  · exact absurd h (hnone i)

/-- A command word lies in its command's row and holds its operands. -/
theorem inRow_of_decode (hd : decode w = .ok i) : InRow w i ∧ withFields w i = i := by
  obtain ⟨j, hj, hdj⟩ | ⟨-, why, hwhy⟩ := decode_cases w
  · obtain rfl := Except.ok.inj (hdj.symm.trans hd)
    cases j <;> exact ⟨hj, rfl⟩
  · cases hwhy.symm.trans hd

/-! Words as numbers (R61, R63). -/

@[simp] theorem toNat_opField (w : Word) : (opField w).toNat = w.toNat / 2 ^ 24 := by
  have := w.isLt
  simp only [opField, BitVec.extractLsb'_toNat, Nat.shiftRight_eq_div_pow]
  omega

@[simp] theorem toNat_addrField (w : Word) : (addrField w).toNat = w.toNat / 4096 % 4096 := by
  simp [addrField, BitVec.extractLsb'_toNat, Nat.shiftRight_eq_div_pow]

@[simp] theorem toNat_lenField (w : Word) : (lenField w).toNat = w.toNat % 4096 := by
  simp [lenField, BitVec.extractLsb'_toNat]

@[simp] theorem toNat_dataField (w : Word) : (dataField w).toNat = w.toNat % 256 := by
  simp [dataField, BitVec.extractLsb'_toNat]

@[simp] theorem toNat_regField (w : Word) : (regField w).toNat = w.toNat % 16 := by
  simp [regField, BitVec.extractLsb'_toNat]

/-- The number of a command word: opcode and operands, each at its place. -/
def encodeValue : Instr → Nat
  | .nop => 0
  | .build => 0x01000000
  | .sealPkt => 0x02000000
  | .csum base len => 0x03000000 + base.toNat * 4096 + len.toNat
  | .ldb addr => 0x04000000 + addr.toNat * 4096
  | .stb addr data => 0x05000000 + addr.toNat * 4096 + data.toNat
  | .rdreg reg => 0x06000000 + reg.toNat

/-- `hi ∥ lo` as a number (00_scope.md R11). -/
theorem toNat_append_eq {m n : Nat} (hi : BitVec m) (lo : BitVec n) :
    (hi ++ lo).toNat = hi.toNat * 2 ^ n + lo.toNat := by
  rw [BitVec.toNat_append, ← Nat.shiftLeft_add_eq_or_of_lt lo.isLt, Nat.shiftLeft_eq]

theorem toNat_encode (i : Instr) : (encode i).toNat = encodeValue i := by
  cases i with
  | nop | build | sealPkt => rfl
  | csum base len | ldb addr | stb addr data | rdreg reg =>
    simp only [encode, encodeValue, toNat_append_eq, BitVec.reduceToNat]
    omega

theorem encode_eq_iff : encode i = w ↔ encodeValue i = w.toNat := by rw [← BitVec.toNat_inj, toNat_encode]

/-- A field that the mask covers and the match value clears is zero in every word of the row. -/
theorem field_eq_zero {mask pattern : Word} (h : w &&& mask = pattern) (start len : Nat)
    (hmask : mask.extractLsb' start len = BitVec.allOnes len) (hpattern : pattern.extractLsb' start len = 0) :
    w.toNat / 2 ^ start % 2 ^ len = 0 := by
  have hfield : w.extractLsb' start len = 0 := by
    rw [← hpattern, ← h, BitVec.extractLsb'_and, hmask, BitVec.and_allOnes]
  simpa [BitVec.extractLsb'_toNat, Nat.shiftRight_eq_div_pow] using congrArg BitVec.toNat hfield

/-- A row leaves no bit open but its operands: a word of the row has the row's opcode, the row's zero field and the
operands its fields hold. -/
theorem InRow.encode_withFields (h : InRow w i) : encode (withFields w i) = w := by
  have hop : w.toNat / 2 ^ 24 = (opcodeOf i).toNat := by rw [← h.opField_eq, toNat_opField]
  have hrow := inRow_iff.1 h
  rw [encode_eq_iff]
  cases i with
  | nop | build | sealPkt =>
    have hzero := field_eq_zero hrow 0 24 rfl rfl
    simp only [withFields, encodeValue, opcodeOf, BitVec.reduceToNat, pow_zero, Nat.div_one] at hop hzero ⊢
    omega
  | csum base len =>
    simp only [withFields, encodeValue, opcodeOf, toNat_addrField, toNat_lenField, BitVec.reduceToNat] at hop ⊢
    omega
  | ldb addr =>
    have hrow : w &&& 0xFF000FFF = 0x04000000 := hrow
    have hzero := field_eq_zero hrow 0 12 rfl rfl
    simp only [withFields, encodeValue, opcodeOf, toNat_addrField, BitVec.reduceToNat, pow_zero, Nat.div_one]
      at hop hzero ⊢
    omega
  | stb addr data =>
    have hrow : w &&& 0xFF000F00 = 0x05000000 := hrow
    have hzero := field_eq_zero hrow 8 4 rfl rfl
    simp only [withFields, encodeValue, opcodeOf, toNat_addrField, toNat_dataField, BitVec.reduceToNat] at hop ⊢
    omega
  | rdreg reg =>
    have hrow : w &&& 0xFFFFFFF0 = 0x06000000 := hrow
    have hzero := field_eq_zero hrow 4 20 rfl rfl
    simp only [withFields, encodeValue, opcodeOf, toNat_regField, BitVec.reduceToNat] at hop ⊢
    omega

/-! Decoding and encoding are inverse. -/

theorem decode_encode (i : Instr) : decode (encode i) = .ok i := by
  rw [(inRow_encode i).decode_eq, withFields_encode]

/-- The decoder and the encoder are one relation between words and commands. -/
theorem decode_eq_ok_iff : decode w = .ok i ↔ encode i = w := by
  constructor
  · intro hd
    obtain ⟨hrow, hfields⟩ := inRow_of_decode hd
    rw [← hfields]
    exact hrow.encode_withFields
  · rintro rfl
    exact decode_encode i

/-- The illegal words are those that encode no command. -/
theorem exists_decode_error_iff : (∃ why, decode w = .error why) ↔ ∀ i, encode i ≠ w := by
  simp only [ne_eq, ← decode_eq_ok_iff]
  cases decode w <;> simp

/-- The five cases of R66: the words that are no opcode and operands put together. -/
theorem exists_decode_error_iff_cases (w : Word) :
    (∃ why, decode w = .error why) ↔
      7 ≤ w.toNat / 2 ^ 24 ∨
      (w.toNat / 2 ^ 24 ≤ 2 ∧ w.toNat % 2 ^ 24 ≠ 0) ∨
      (w.toNat / 2 ^ 24 = 4 ∧ w.toNat % 4096 ≠ 0) ∨
      (w.toNat / 2 ^ 24 = 5 ∧ w.toNat / 256 % 16 ≠ 0) ∨
      (w.toNat / 2 ^ 24 = 6 ∧ w.toNat / 16 % 2 ^ 20 ≠ 0) := by
  simp only [exists_decode_error_iff, ne_eq, encode_eq_iff]
  constructor
  · intro hnone
    have hnop := hnone .nop
    have hbuild := hnone .build
    have hseal := hnone .sealPkt
    have hcsum := hnone (.csum (addrField w) (lenField w))
    have hldb := hnone (.ldb (addrField w))
    have hstb := hnone (.stb (addrField w) (dataField w))
    have hrdreg := hnone (.rdreg (regField w))
    simp only [encodeValue, toNat_addrField, toNat_lenField, toNat_dataField, toNat_regField] at *
    omega
  · intro hcases i hi
    cases i <;> simp only [encodeValue] at hi <;> omega

/-! The step over a word that faults. -/

/-- A word that causes a fault in a running machine latches the code and the word, and changes nothing else
(60_exceptions.md R142). -/
theorem step_of_causesFault {s : State} {ws : List Word} (he : s.err = 0) (hc : s.cmds = w :: ws)
    (hcause : CausesFault s.cfg.memBytes w code) :
    step s = .next { s with cmds := ws, err := code.bits, fcmd := w, rsp := some ⟨0, code.bits⟩ } := by
  have hblock : s.toBlock.step s.cfg w = s.toBlock.takeFault code w := by
    cases hd : decode w with
    | error why =>
      obtain rfl := (causesFault_of_illegal hd).1 hcause
      exact Block.step_illegal s.cfg he hd
    | ok i =>
      rw [Block.step_decoded s.cfg he hd, Block.execute_of_fault ((causesFault_of_decode hd).1 hcause),
        decode_eq_ok_iff.1 hd]
  rw [step_of_cmds_cons hc, hblock, Block.takeFault_latched hcause.latched]
  rfl

/-! The assembler (R69, R70). -/

theorem assemble_of_wellFormed {c : SourceCmd} (hwf : c.wellFormed = true) :
    assemble c = some ((expandSource c).map encode) := if_pos hwf

theorem assemble_of_ill_formed {c : SourceCmd} (hwf : c.wellFormed = false) : assemble c = none := by
  simp [assemble, hwf]

/-! The obligations of 30_encoding.md. -/

/-- Settles O2: an encoded command lies in its own row, and the fields of its word are its operands. -/
theorem decodeOfEncode : Obligations.DecodeOfEncode := decode_encode

/-- Settles O3: what the row's mask leaves open is exactly the operands. -/
theorem encodeOfDecode : Obligations.EncodeOfDecode := fun _ _ => decode_eq_ok_iff.1

/-- Settles O4: the decoder answers a row's command for the words of the row and for no others. -/
theorem decodeByMaskAndMatch : Obligations.DecodeByMaskAndMatch := by
  have hmatch {w : Word} {i : Instr} (hd : decode w = .ok i) : w &&& maskOf i = patternOf i :=
    inRow_iff.1 (inRow_of_decode hd).1
  have hdecode {w : Word} (i : Instr) (h : w &&& maskOf i = patternOf i) : decode w = .ok (withFields w i) :=
    (inRow_iff.2 h).decode_eq
  intro w
  refine ⟨⟨hmatch, hdecode .nop⟩, ⟨hmatch, hdecode .build⟩, ⟨hmatch, hdecode .sealPkt⟩, ?_, ?_, ?_, ?_⟩
  · exact ⟨fun ⟨_, _, hd⟩ => hmatch hd, fun h => ⟨_, _, hdecode (.csum 0 0) h⟩⟩
  · exact ⟨fun ⟨_, hd⟩ => hmatch hd, fun h => ⟨_, hdecode (.ldb 0) h⟩⟩
  · exact ⟨fun ⟨_, _, hd⟩ => hmatch hd, fun h => ⟨_, _, hdecode (.stb 0 0) h⟩⟩
  · exact ⟨fun ⟨_, hd⟩ => hmatch hd, fun h => ⟨_, hdecode (.rdreg 0) h⟩⟩

/-- Settles O5: the operands of a command word are its fields. -/
theorem operandsAreFields : Obligations.OperandsAreFields := by
  refine fun w => ⟨fun base len hd => ?_, fun addr hd => ?_, fun addr data hd => ?_, fun reg hd => ?_⟩
  · obtain ⟨rfl, rfl⟩ := Instr.csum.inj (inRow_of_decode hd).2
    exact ⟨toNat_addrField w, toNat_lenField w⟩
  · obtain rfl := Instr.ldb.inj (inRow_of_decode hd).2
    exact toNat_addrField w
  · obtain ⟨rfl, rfl⟩ := Instr.stb.inj (inRow_of_decode hd).2
    exact ⟨toNat_addrField w, toNat_dataField w⟩
  · obtain rfl := Instr.rdreg.inj (inRow_of_decode hd).2
    exact toNat_regField w

/-- Settles O6: the five cases are the words that encode no command; each of the three kinds of words causes its fault. -/
theorem illegalWordsExactly : Obligations.IllegalWordsExactly := by
  intro w
  refine ⟨exists_decode_error_iff_cases w, fun s ws why he hc hd => ?_, fun s ws he hc hop hout => ?_,
    fun s ws he hc hop hreg => ?_⟩
  · exact step_of_causesFault he hc ((causesFault_of_illegal hd).2 rfl)
  · have hd : decode w = .ok (.csum (addrField w) (lenField w)) := by
      rw [decode_eq_ok_iff, encode_eq_iff, encodeValue, toNat_addrField, toNat_lenField]
      omega
    exact step_of_causesFault he hc ((causesFault_of_decode hd).2 (if_pos (by rwa [toNat_addrField, toNat_lenField])))
  · have hd : decode w = .ok (.rdreg (regField w)) := by
      rw [decode_eq_ok_iff, encode_eq_iff, encodeValue, toNat_regField]
      omega
    exact step_of_causesFault he hc ((causesFault_of_decode hd).2 (if_pos (by rwa [toNat_regField])))

/-- Settles O51: an operand in its range is the value of its field, and one out of its range is ill-formed. -/
theorem assembledWordsDecode : Obligations.AssembledWordsDecode := by
  refine ⟨fun base len hbase hlen => ?_, fun addr haddr => ?_, fun addr data haddr hdata => ?_, fun reg hreg => ?_,
    fun base len hout => ?_, fun addr hout => ?_, fun addr data hout => ?_, fun reg hout => ?_⟩
  · exact ⟨_, _, _, assemble_of_wellFormed (by simp [SourceCmd.wellFormed, hbase, hlen]), decode_encode _,
      Nat.mod_eq_of_lt hbase, Nat.mod_eq_of_lt hlen⟩
  · exact ⟨_, _, assemble_of_wellFormed (by simp [SourceCmd.wellFormed, haddr]), decode_encode _,
      Nat.mod_eq_of_lt haddr⟩
  · exact ⟨_, _, _, assemble_of_wellFormed (by simp [SourceCmd.wellFormed, haddr, hdata]), decode_encode _,
      Nat.mod_eq_of_lt haddr, Nat.mod_eq_of_lt hdata⟩
  · exact ⟨_, _, assemble_of_wellFormed (by simp [SourceCmd.wellFormed, hreg]), decode_encode _,
      Nat.mod_eq_of_lt hreg⟩
  · exact assemble_of_ill_formed (by simp [SourceCmd.wellFormed]; omega)
  · exact assemble_of_ill_formed (by simp [SourceCmd.wellFormed]; omega)
  · exact assemble_of_ill_formed (by simp [SourceCmd.wellFormed]; omega)
  · exact assemble_of_ill_formed (by simp [SourceCmd.wellFormed]; omega)

/-- Settles O1, by evaluating the decoder on the worked words (R72). -/
theorem workedEncodingsDecode : Obligations.WorkedEncodingsDecode := by
  unfold Obligations.WorkedEncodingsDecode
  decide

/-- Settles O7: running, the block's step executes the command; halted, the step and the command both refuse. -/
theorem stepRunsDecodedCommand : Obligations.StepRunsDecodedCommand := by
  intro s w ws i hc hd
  rw [step_of_cmds_cons hc]
  by_cases he : s.err = 0
  · rw [Block.step_decoded s.cfg he hd, exec_running (s := { s with cmds := ws }) he]
  · rw [Block.step_halted s.cfg he, exec_halted (s := { s with cmds := ws }) he]

/-- Settles O50: the words of each expansion, as the assembler computes them. -/
theorem pseudoCommandExpansions : Obligations.PseudoCommandExpansions := ⟨rfl, fun _ _ => rfl, rfl⟩

end Sys2Proof.Machine
end

section
/-! SUPPORT. The checksum (40_checksum.md): the word sum as an exact sum of word values, the fold as a number, a value
stored in a field of a buffer, and the command `CSUM`. -/

namespace Sys2Proof.Machine

/-! The sum of the word values (R80, R81, R82). -/

/-- Each whole word adds at most 0xFFFF and an odd last byte at most 0xFF00. -/
theorem sum_wordValues_le (bytes : List Byte) :
    (wordValues bytes).sum ≤ bytes.length / 2 * 0xFFFF + bytes.length % 2 * 0xFF00 := by
  induction bytes using wordValues.induct with
  | case1 b0 b1 rest ih =>
    have h0 := b0.isLt
    have h1 := b1.isLt
    simp only [wordValues, List.sum_cons, List.length_cons]
    omega
  | case2 b =>
    have h := b.isLt
    simp only [wordValues, List.sum_singleton, List.length_singleton]
    omega
  | case3 => simp [wordValues]

/-- The greatest sum that a command can reach (R82). -/
theorem sum_wordValues_le_of_length_le {bytes : List Byte} (h : bytes.length ≤ 4095) :
    (wordValues bytes).sum ≤ 0x07FFF701 := by
  have hsum := sum_wordValues_le bytes
  omega

/-- The accumulator does not wrap on a buffer that a command can name (R82). -/
theorem wordsum_toNat_of_length_le {bytes : List Byte} (h : bytes.length ≤ 4095) :
    (wordsum bytes).toNat = (wordValues bytes).sum := by
  have hsum := sum_wordValues_le_of_length_le h
  rw [wordsum_toNat, Nat.mod_eq_of_lt (by omega)]

theorem sum_wordValues_eq_sum_range (bytes : List Byte) :
    (wordValues bytes).sum =
      ∑ j ∈ Finset.range ((bytes.length + 1) / 2),
        (256 * (bytes.getD (2 * j) 0).toNat + (bytes.getD (2 * j + 1) 0).toNat) := by
  induction bytes using wordValues.induct with
  | case1 b0 b1 rest ih =>
    have hlen : ((b0 :: b1 :: rest).length + 1) / 2 = (rest.length + 1) / 2 + 1 := by
      simp only [List.length_cons]
      omega
    rw [wordValues, List.sum_cons, ih, hlen, Finset.sum_range_succ', Nat.add_comm]
    simp [Nat.mul_add]
  | case2 b => simp [wordValues]
  | case3 => simp [wordValues]

/-- `n` whole words of 0xFF bytes and one byte more. -/
theorem sum_wordValues_replicate_ones (n : Nat) :
    (wordValues (List.replicate (2 * n + 1) 0xFF)).sum = n * 0xFFFF + 0xFF00 := by
  induction n with
  | zero => rfl
  | succ n ih =>
    rw [show 2 * (n + 1) + 1 = 2 * n + 1 + 1 + 1 by omega, List.replicate_succ, List.replicate_succ, wordValues,
      List.sum_cons, ih]
    simp only [BitVec.reduceToNat]
    omega

/-- The sum of the word values decides the word sum, at any length. -/
theorem wordsum_congr {A B : List Byte} (h : (wordValues A).sum = (wordValues B).sum) : wordsum A = wordsum B := by
  rw [← BitVec.toNat_inj, wordsum_toNat, wordsum_toNat, h]

/-- An odd last byte has the value of the word it makes with a zero byte (R81). -/
theorem wordValues_append_zero {bytes : List Byte} (h : bytes.length % 2 = 1) :
    wordValues (bytes ++ [0x00]) = wordValues bytes := by
  induction bytes using wordValues.induct with
  | case1 b0 b1 rest ih =>
    have hrest : rest.length % 2 = 1 := by
      simp only [List.length_cons] at h
      omega
    simp only [List.cons_append, wordValues, ih hrest]
  | case2 b => rfl
  | case3 => cases h

theorem wordValues_flatMap_pairs (ps : List (Byte × Byte)) :
    wordValues (ps.flatMap fun p => [p.1, p.2]) = ps.map fun p => 256 * p.1.toNat + p.2.toNat := by
  induction ps with
  | nil => rfl
  | cons p ps ih => simp [wordValues, ih]

/-! The fold as a number (R83, R84, R92). -/

theorem carryPart_eq_zero_iff {s : Word} : carryPart s = 0 ↔ s.toNat < 65536 := by
  rw [← BitVec.toNat_inj, toNat_carryPart]
  exact Nat.div_eq_zero_iff_lt (by decide)

/-- A pass changes nothing where no carry remains. -/
theorem foldPass_of_no_carry {s : Word} (h : carryPart s = 0) : foldPass s = s := by
  have hlt := carryPart_eq_zero_iff.1 h
  rw [← BitVec.toNat_inj, toNat_foldPass]
  omega

/-- The first pass of the loop may as well be unconditional. -/
theorem foldLoop_succ (n : Nat) (s : Word) : foldLoop (n + 1) s = foldLoop n (foldPass s) := by
  by_cases h : carryPart s = 0
  · rw [foldPass_of_no_carry h, foldLoop_of_no_carry _ h, foldLoop_of_no_carry _ h]
  · exact foldLoop_of_carry n h

/-- No carry is left by two passes: the first leaves at most 0x1FFFE, and the second at most 0xFFFF (R84). -/
theorem carryPart_foldPass_foldPass (s : Word) : carryPart (foldPass (foldPass s)) = 0 := by
  have hs := s.isLt
  rw [carryPart_eq_zero_iff, toNat_foldPass, toNat_foldPass]
  omega

/-- The loop is two unconditional passes, wherever it is cut off after them. -/
theorem foldLoop_add_two (n : Nat) (s : Word) : foldLoop (n + 2) s = foldPass (foldPass s) := by
  rw [foldLoop_succ, foldLoop_succ, foldLoop_of_no_carry n (carryPart_foldPass_foldPass s)]

/-- Nothing of the last pass is lost in the 16 bits of the fold. -/
theorem toNat_fold_eq_toNat_foldPass (acc : Word) : (fold acc).toNat = (foldPass (foldPass acc)).toNat := by
  have hlt := carryPart_eq_zero_iff.1 (carryPart_foldPass_foldPass acc)
  rw [fold, foldLoop_add_two, BitVec.extractLsb'_toNat, Nat.shiftRight_zero]
  exact Nat.mod_eq_of_lt hlt

theorem toNat_fold (acc : Word) :
    (fold acc).toNat =
      (acc.toNat % 65536 + acc.toNat / 65536) % 65536 + (acc.toNat % 65536 + acc.toNat / 65536) / 65536 := by
  rw [toNat_fold_eq_toNat_foldPass, toNat_foldPass, toNat_foldPass]

/-- Below 65536 nothing is folded (R92 (d)). -/
theorem toNat_fold_of_lt {acc : Word} (h : acc.toNat < 65536) : (fold acc).toNat = acc.toNat := by
  rw [toNat_fold]
  omega

/-- The closed form (R92 (c)). -/
theorem toNat_fold_of_pos {acc : Word} (h : 0 < acc.toNat) : (fold acc).toNat = (acc.toNat - 1) % 65535 + 1 := by
  have hacc := acc.isLt
  rw [toNat_fold]
  omega

@[simp] theorem fold_zero : fold 0 = 0 := rfl

/-- The fold keeps the residue modulo 0xFFFF (R92 (a)). -/
theorem toNat_fold_mod (acc : Word) : (fold acc).toNat % 65535 = acc.toNat % 65535 := by
  obtain hzero | hpos := Nat.eq_zero_or_pos acc.toNat
  · rw [toNat_fold_of_lt (by omega)]
  · rw [toNat_fold_of_pos hpos]
    omega

theorem fold_eq_zero_iff {acc : Word} : fold acc = 0 ↔ acc = 0 := by
  constructor
  · intro h
    by_contra hne
    have hpos : 0 < acc.toNat := Nat.pos_of_ne_zero fun h0 => hne (BitVec.eq_of_toNat_eq h0)
    have hfold := toNat_fold_of_pos hpos
    rw [h] at hfold
    exact absurd hfold.symm (Nat.succ_ne_zero _)
  · rintro rfl
    exact fold_zero

/-- The accumulators that verify: the multiples of 0xFFFF but 0. -/
theorem fold_eq_ones_iff {acc : Word} : fold acc = 0xFFFF ↔ 0 < acc.toNat ∧ acc.toNat % 65535 = 0 := by
  rw [← BitVec.toNat_inj, show (0xFFFF : Half).toNat = 65535 from rfl]
  obtain hzero | hpos := Nat.eq_zero_or_pos acc.toNat
  · rw [toNat_fold_of_lt (by omega)]
    omega
  · rw [toNat_fold_of_pos hpos]
    omega

/-! The checksum of a buffer (R85), and a value stored in a field of it (R88, R89). -/

theorem toNat_chk (bytes : List Byte) : (chk bytes).toNat = 65535 - (fold (wordsum bytes)).toNat := BitVec.toNat_not

theorem chk_eq_zero_iff {bytes : List Byte} : chk bytes = 0x0000 ↔ fold (wordsum bytes) = 0xFFFF := by
  rw [chk, BitVec.not_eq_comm, show ~~~(0x0000 : Half) = 0xFFFF from rfl]

/-- The buffer with `v` stored big-endian in the two bytes at `k` (20_memory.md R42). -/
def storeField (bytes : List Byte) (k : Nat) (v : Half) : List Byte :=
  (bytes.set k (hiByte v)).set (k + 1) (loByte v)

@[simp] theorem length_storeField (bytes : List Byte) (k : Nat) (v : Half) :
    (storeField bytes k v).length = bytes.length := by simp [storeField]

/-- A field at an even offset is one word of the buffer. -/
theorem wordValues_storeField {bytes : List Byte} {j : Nat} (h : 2 * j + 1 < bytes.length) (v : Half) :
    wordValues (storeField bytes (2 * j) v) = (wordValues bytes).set j v.toNat := by
  induction bytes using wordValues.induct generalizing j with
  | case1 b0 b1 rest ih =>
    cases j with
    | zero =>
      have hv : 256 * (v.toNat / 256) + v.toNat % 256 = v.toNat := Nat.div_add_mod _ _
      simp [storeField, wordValues, hv]
    | succ j =>
      have hrest : 2 * j + 1 < rest.length := by
        simp only [List.length_cons] at h
        omega
      exact congrArg ((256 * b0.toNat + b1.toNat) :: ·) (ih hrest)
  | case2 b => simp only [List.length_singleton] at h; omega
  | case3 => cases h

/-- Storing a value in a field that is zero adds the value to the word sum. -/
theorem toNat_wordsum_storeField {bytes : List Byte} {k : Nat} (hlen : bytes.length ≤ 4095) (heven : k % 2 = 0)
    (hk : k + 1 < bytes.length) (v : Half) :
    (wordsum (storeField (storeField bytes k 0) k v)).toNat = (wordsum (storeField bytes k 0)).toNat + v.toNat := by
  obtain ⟨j, rfl⟩ : ∃ j, k = 2 * j := ⟨k / 2, by omega⟩
  have hj : j < (wordValues bytes).length := by rw [length_wordValues]; omega
  rw [wordsum_toNat_of_length_le (by simpa), wordsum_toNat_of_length_le (by simpa),
    wordValues_storeField (by simpa), wordValues_storeField hk, List.set_set, List.sum_set, List.sum_set]
  simp only [hj, if_true, BitVec.reduceToNat]
  omega

/-- Which values verify, stored in the field (R89): the sum with the field zero and the value together have to be a
multiple of 0xFFFF other than 0. -/
theorem chk_storeField_eq_zero_iff {bytes : List Byte} {k : Nat} (hlen : bytes.length ≤ 4095) (heven : k % 2 = 0)
    (hk : k + 1 < bytes.length) (v : Half) :
    chk (storeField (storeField bytes k 0) k v) = 0x0000 ↔
      v = chk (storeField bytes k 0) ∨ (chk (storeField bytes k 0) = 0x0000 ∧ v = 0xFFFF) := by
  have hv := v.isLt
  rw [chk_eq_zero_iff, fold_eq_ones_iff, toNat_wordsum_storeField hlen heven hk, ← BitVec.toNat_inj (x := v),
    ← BitVec.toNat_inj (x := chk _), ← BitVec.toNat_inj (x := v), toNat_chk]
  simp only [BitVec.reduceToNat]
  obtain hzero | hpos := Nat.eq_zero_or_pos (wordsum (storeField bytes k 0)).toNat
  · rw [toNat_fold_of_lt (by omega)]
    omega
  · rw [toNat_fold_of_pos hpos]
    omega

/-! The command `CSUM` (R87). -/

/-- An admitted `CSUM` in a running machine delivers the checksum of its range. -/
theorem exec_csum_admitted {s : State} {base len : Addr} (he : s.err = 0)
    (hin : base.toNat + len.toNat ≤ s.cfg.memBytes) :
    exec (.csum base len) s =
      .next (s.answer (s.toBlock.deliverChecksum (wordsum (s.bytes base.toNat len.toNat)))) := by
  have hf : faultOf s.cfg.memBytes (.csum base len) = none := if_neg (Nat.not_lt.2 hin)
  rw [exec_running he, Block.execute_of_no_fault hf, Block.effect]

/-- A command that raises a fault latches its code and its word, and changes nothing else (60_exceptions.md R142). -/
theorem exec_of_fault {s : State} {i : Instr} {code : FaultCode} (he : s.err = 0)
    (hf : faultOf s.cfg.memBytes i = some code) :
    exec i s = .next { s with err := code.bits, fcmd := encode i, rsp := some ⟨0, code.bits⟩ } := by
  rw [exec_running he, Block.execute_of_fault hf, Block.takeFault_latched (faultOf_latched hf)]
  rfl

/-! The obligations of 40_checksum.md. -/

/-- Settles O15, by the word as a number and the two outcomes of `CSUM`. -/
theorem csumReturnsChecksum : Obligations.CsumReturnsChecksum := by
  refine ⟨fun base len => toNat_encode (.csum base len), ?_, fun s base len he hout => ?_⟩
  · rintro s base len raw c he hin rfl rfl
    exact exec_csum_admitted he hin
  · have hf : faultOf s.cfg.memBytes (.csum base len) = some .range := if_pos hout
    exact exec_of_fault he hf

/-- Settles O37: the accumulator cannot wrap, so the word sum is the sum of the word values, which the bound is about. -/
theorem wordsumIsExactSum : Obligations.WordsumIsExactSum := by
  refine ⟨fun B hlen => ?_, ?_⟩
  · rw [wordsum_toNat_of_length_le hlen]
    exact ⟨sum_wordValues_eq_sum_range B, sum_wordValues_le_of_length_le hlen⟩
  · rw [wordsum_toNat_of_length_le List.length_replicate.le]
    exact sum_wordValues_replicate_ones 2047

/-- Settles O38: the padding byte changes no word value. -/
theorem oddLengthPadsWithZero : Obligations.OddLengthPadsWithZero :=
  fun _ hodd => wordsum_congr (congrArg List.sum (wordValues_append_zero hodd).symm)

/-- Settles O39: reordered words are reordered summands; for the rest, buffers with one byte that is not zero. -/
theorem wordOrderIrrelevant : Obligations.WordOrderIrrelevant := by
  refine ⟨fun ps qs hperm => wordsum_congr ?_, ⟨0x01, 0x00, by decide⟩, ⟨0x01, 0x00, 0x00, 0x00, by decide⟩⟩
  rw [wordValues_flatMap_pairs, wordValues_flatMap_pairs]
  exact (hperm.map _).sum_eq

/-- Settles O40: from two passes on the loop is two unconditional passes. -/
theorem twoPassesSuffice : Obligations.TwoPassesSuffice := by
  refine ⟨fun acc n hn => ?_, ?_, by decide⟩
  · obtain ⟨m, rfl⟩ := Nat.exists_eq_add_of_le' hn
    rw [fold, foldLoop_add_two, foldLoop_add_two]
    exact ⟨carryPart_foldPass_foldPass acc, rfl⟩
  · rintro acc s1 s2 rfl rfl
    have hcarry : (acc.toNat % 65536 + acc.toNat / 65536) / 65536 < 2 := by
      have hacc := acc.isLt
      omega
    rw [Nat.mod_eq_of_lt hcarry, ← toNat_fold, Nat.mod_eq_of_lt (fold acc).isLt]

/-- Settles O41, law by law. -/
theorem foldLaws : Obligations.FoldLaws := fun acc =>
  ⟨toNat_fold_mod acc, fold_eq_zero_iff, toNat_fold_of_pos, fun h => toNat_fold_of_lt (Nat.lt_succ_of_le h)⟩

/-- Settles O44: the stored value adds itself to the word sum, and the closed form of the fold says when the result
verifies. -/
theorem whichStoredValuesVerify : Obligations.WhichStoredValuesVerify := by
  rintro B _ _ k _ v - hlen heven hk rfl rfl rfl
  exact chk_storeField_eq_zero_iff hlen heven hk v

/-- Settles O43: the checksum is one of the values that verify (O44). -/
theorem selfVerification : Obligations.SelfVerification := by
  rintro B _ _ k _ - hlen heven hk rfl rfl rfl
  have hchk := (chk_storeField_eq_zero_iff hlen heven hk _).2 (.inl rfl)
  exact ⟨toNat_wordsum_storeField hlen heven hk _, chk_eq_zero_iff.1 hchk, hchk⟩

/-- Settles O45: `CSUM` writes no byte of its range, and what it writes does not depend on what it wrote before. -/
theorem csumIdempotent : Obligations.CsumIdempotent := by
  intro s t base len he hin hexec
  obtain rfl := Host.Outcome.next.inj ((exec_csum_admitted he hin).symm.trans hexec)
  exact exec_csum_admitted he hin

/-- Settles O16: the word sum of no bytes is 0, whose folded complement is 0xFFFF. -/
theorem csumOfEmptyRange : Obligations.CsumOfEmptyRange := by
  intro s base he hbase
  have hsum : wordsum (s.bytes base.toNat (0 : Addr).toNat) = 0 := rfl
  rw [exec_csum_admitted (len := 0) he hbase, hsum]
  rfl

/-- Settles O42, by evaluating the functions on the rows of the table (R90). -/
theorem chkSmallCases : Obligations.ChkSmallCases := by
  unfold Obligations.ChkSmallCases
  decide

end Sys2Proof.Machine
end

section
/-! SUPPORT. The packet builder (41_packet_builder.md): the buffer as a list of bytes under the writes to it, the packet
and its word sum, and the commands `BUILD` and `SEAL` in a running machine. -/

namespace Sys2Proof.Machine

variable {b : Block} {s t : State}

/-! The bytes from address 0 as a list (20_memory.md R41, R56). -/

theorem Block.bytes_memWrite1 (b : Block) (a : Nat) (v : Byte) (n : Nat) :
    (b.memWrite1 a v).bytes 0 n = (b.bytes 0 n).set a v := by
  refine List.ext_getElem (by simp) fun i _ _ => ?_
  rw [List.getElem_set, Block.getElem_bytes, Block.getElem_bytes, Nat.zero_add, Block.byteAt_memWrite1]
  simp only [eq_comm]

theorem Block.bytes_memWrite2 (b : Block) (a : Nat) (v : Half) (n : Nat) :
    (b.memWrite2 a v).bytes 0 n = storeField (b.bytes 0 n) a v := by
  rw [storeField, ← Block.bytes_memWrite1, ← Block.bytes_memWrite1]
  rfl

theorem Block.bytes_memFill (b : Block) (v : Byte) (n : Nat) : (b.memFill 0 v n).bytes 0 n = List.replicate n v := by
  refine List.ext_getElem (by simp) fun i hi _ => ?_
  have hin : 0 ≤ i ∧ i < 0 + n := by simpa using hi
  rw [List.getElem_replicate, Block.getElem_bytes, Nat.zero_add, Block.byteAt_memFill, if_pos hin]

/-- A read of bytes depends on `mem` alone. -/
theorem Block.bytes_congr_mem {b c : Block} (h : b.mem = c.mem) (base len : Nat) : b.bytes base len = c.bytes base len :=
  Block.bytes_congr fun i _ => Block.byteAt_congr h (base + i)

theorem Block.take_bytes (b : Block) (base : Nat) {m n : Nat} (h : m ≤ n) :
    (b.bytes base n).take m = b.bytes base m := by
  rw [Block.bytes, ← List.map_take, List.take_range, Nat.min_eq_left h, Block.bytes]

/-! The packet (R100) and its word sum. -/

/-- The 64 bytes of the packet with the given checksum field, identifier and sequence number (R100). -/
def packet (checksum ident seq : Half) : List Byte :=
  [0x08, 0x00, hiByte checksum, loByte checksum, hiByte ident, loByte ident, hiByte seq, loByte seq] ++
    List.replicate 56 0x00

@[simp] theorem storeField_packet (old new ident seq : Half) :
    storeField (packet old ident seq) 2 new = packet new ident seq := rfl

/-- `BUILD` writes the unchecksummed packet (R102). -/
theorem Block.bytes_writePacket (b : Block) (cfg : Cfg) :
    (b.writePacket cfg).bytes 0 64 = packet 0 cfg.ident b.seq := by
  simp only [Block.writePacket, Block.bytes_memWrite2, Block.bytes_memWrite1, Block.bytes_memFill]
  rfl

theorem Block.bytes_build (b : Block) (cfg : Cfg) : (b.build cfg).1.bytes 0 64 = packet 0 cfg.ident b.seq := by
  rw [Block.build_block, Block.bytes_congr_mem (Block.advanceSeq_mem _), Block.bytes_writePacket]

theorem wordValues_packet (ident seq : Half) :
    wordValues (packet 0 ident seq) = [0x0800, 0, ident.toNat, seq.toNat] ++ List.replicate 28 0 := by
  have hsplit (v : Half) : 256 * (hiByte v).toNat + (loByte v).toNat = v.toNat := by
    rw [toNat_hiByte, toNat_loByte, Nat.div_add_mod]
  rw [← hsplit ident, ← hsplit seq]
  rfl

/-- The word sum of the unchecksummed packet (R105). -/
theorem wordsum_packet (ident seq : Half) :
    wordsum (packet 0 ident seq) = BitVec.ofNat 32 (0x0800 + ident.toNat + seq.toNat) := by
  have hsum : (wordValues (packet 0 ident seq)).sum = 0x0800 + ident.toNat + seq.toNat := by
    rw [wordValues_packet, List.sum_append, List.sum_replicate]
    simp [Nat.add_assoc]
  rw [← BitVec.toNat_inj, wordsum_toNat, hsum, BitVec.toNat_ofNat]

/-! The buffer before and after `SEAL` (R104). -/

theorem Block.sealSum_eq (b : Block) : b.sealSum = wordsum (storeField (b.bytes 0 64) 2 0) :=
  congrArg wordsum (b.bytes_memWrite2 2 0 64)

/-- The sum that `SEAL` computes after `BUILD` (R105). -/
theorem Block.sealSum_build (b : Block) (cfg : Cfg) :
    (b.build cfg).1.sealSum = BitVec.ofNat 32 (0x0800 + cfg.ident.toNat + b.seq.toNat) := by
  rw [Block.sealSum_eq, Block.bytes_build, storeField_packet, wordsum_packet]

/-- `SEAL` stores the checksum of the buffer with its field zero in the field. -/
theorem Block.bytes_sealPkt (b : Block) :
    b.sealPkt.1.bytes 0 64 = storeField (storeField (b.bytes 0 64) 2 0) 2 (chk (storeField (b.bytes 0 64) 2 0)) := by
  rw [chk, ← Block.sealSum_eq, ← Block.bytes_memWrite2, ← Block.bytes_memWrite2]
  rfl

/-- The sealed packet of `MKPKT` (R105). -/
theorem Block.bytes_sealPkt_build (b : Block) (cfg : Cfg) :
    (b.build cfg).1.sealPkt.1.bytes 0 64 =
      packet (~~~(fold (BitVec.ofNat 32 (0x0800 + cfg.ident.toNat + b.seq.toNat)))) cfg.ident b.seq := by
  rw [Block.bytes_sealPkt, Block.bytes_build, storeField_packet, storeField_packet, chk, wordsum_packet]

/-- `SEAL` writes the checksum field alone. -/
theorem Block.byteAt_sealPkt_outside {x : Nat} (h2 : x ≠ 2) (h3 : x ≠ 3) : b.sealPkt.1.byteAt x = b.byteAt x := by
  rw [Block.byteAt_sealPkt, if_neg h2, if_neg h3]

/-- A sealed buffer verifies (R106). -/
theorem Block.chk_bytes_sealPkt (b : Block) : chk (b.sealPkt.1.bytes 0 64) = 0x0000 := by
  rw [Block.bytes_sealPkt, chk_storeField_eq_zero_iff (by simp) rfl (by simp)]
  exact .inl rfl

/-- The greatest sum of 64 bytes (R104). -/
theorem Block.toNat_sealSum_le (b : Block) : b.sealSum.toNat ≤ 0x001FFFE0 := by
  have hsum := sum_wordValues_le (storeField (b.bytes 0 64) 2 0)
  have hlen : (storeField (b.bytes 0 64) 2 0).length = 64 := by simp
  rw [hlen] at hsum
  rw [Block.sealSum_eq, wordsum_toNat_of_length_le (by simp)]
  exact hsum

/-- The old checksum does not enter the new one (R107). -/
theorem Block.sealSum_sealPkt (b : Block) : b.sealPkt.1.sealSum = b.sealSum :=
  Block.sealSum_congr fun _ _ => Block.byteAt_sealPkt_outside

/-- The old checksum does not enter the new one where a byte was stored in between either (R107). -/
theorem Block.sealSum_memWrite1_sealPkt (b : Block) (a : Nat) (v : Byte) :
    (b.sealPkt.1.memWrite1 a v).sealSum = (b.memWrite1 a v).sealSum :=
  Block.sealSum_congr fun x _ h2 h3 => by
    rw [Block.byteAt_memWrite1, Block.byteAt_memWrite1, Block.byteAt_sealPkt_outside h2 h3]

theorem Block.sealPkt_wf (h : b.mem.wf) : b.sealPkt.1.mem.wf :=
  Block.memWrite2_wf (Block.clearChecksum_wf h) _ _

/-- The bytes listed after `SEAL`: the checksum field alone is listed anew. -/
theorem Block.get?_sealPkt (b : Block) (x : Nat) :
    b.sealPkt.1.mem.get? x =
      if x = 3 then some (loByte (~~~(fold b.sealSum)))
      else if x = 2 then some (hiByte (~~~(fold b.sealSum)))
      else b.mem.get? x := by
  simp only [Block.sealPkt, Block.deliverChecksum_mem, Block.memWrite2_mem, Block.clearChecksum, Memory.get?_put,
    Config.offChecksum]
  split_ifs <;> rfl

/-- A second `SEAL` lists the same two bytes again, which a canonical memory does not notice. -/
theorem Block.sealPkt_sealPkt (h : b.mem.wf) : b.sealPkt.1.sealPkt = b.sealPkt := by
  have hmem : b.sealPkt.1.sealPkt.1.mem = b.sealPkt.1.mem := by
    refine Memory.ext_get? (Block.sealPkt_wf (Block.sealPkt_wf h)) (Block.sealPkt_wf h) fun x => ?_
    rw [Block.get?_sealPkt, Block.sealSum_sealPkt, Block.get?_sealPkt]
    split_ifs <;> rfl
  calc b.sealPkt.1.sealPkt
    _ = { b with mem := b.sealPkt.1.sealPkt.1.mem }.deliverChecksum b.sealPkt.1.sealSum := rfl
    _ = { b with mem := b.sealPkt.1.mem }.deliverChecksum b.sealSum := by rw [hmem, Block.sealSum_sealPkt]
    _ = b.sealPkt := rfl

/-! The two commands in a running machine. -/

/-- `BUILD` changes `MEM` and `SEQ` alone, and answers the old `SEQ` (R102). -/
theorem State.answer_build (s : State) :
    s.answer (s.build s.cfg) =
      { s with mem := (s.answer (s.build s.cfg)).mem, seq := nextSeq s.seq, rsp := some ⟨s.seq.setWidth 32, 0⟩ } := by
  rw [Block.build_eq]
  generalize (s.writePacket s.cfg).mem = m
  rfl

/-- `SEAL` changes `MEM`, `ACC`, `RESULT` and `Z` alone, and answers the checksum (R104). -/
theorem State.answer_sealPkt (s : State) :
    s.answer s.sealPkt =
      { s with mem := (s.answer s.sealPkt).mem, acc := s.sealSum, result := ~~~(fold s.sealSum),
               z := decide (~~~(fold s.sealSum) = 0), rsp := some ⟨(~~~(fold s.sealSum)).setWidth 32, 0⟩ } := rfl

/-- What `MKPKT` changes (R105). -/
theorem State.answer_build_answer_sealPkt {u : State} (ht : t = s.answer (s.build s.cfg)) (hu : u = t.answer t.sealPkt) :
    u = { s with mem := u.mem, seq := nextSeq s.seq, acc := t.sealSum, result := ~~~(fold t.sealSum),
                 z := decide (~~~(fold t.sealSum) = 0), rsp := some ⟨(~~~(fold t.sealSum)).setWidth 32, 0⟩ } := by
  have hframe := ht.trans s.answer_build
  rw [← ht] at hframe
  refine (hu.trans t.answer_sealPkt).trans ?_
  rw [← hu]
  generalize u.mem = m
  generalize t.sealSum = raw
  rw [hframe]

theorem exec_build_running (he : s.err = 0) : exec .build s = .next (s.answer (s.build s.cfg)) :=
  exec_running he .build

theorem exec_sealPkt_running (he : s.err = 0) : exec .sealPkt s = .next (s.answer s.sealPkt) :=
  exec_running he .sealPkt

theorem eq_answer_sealPkt (hexec : exec .sealPkt s = .next t) (he : s.err = 0) : t = s.answer s.sealPkt :=
  Host.Outcome.next.inj (hexec.symm.trans (exec_sealPkt_running he))

theorem exec_stb_admitted {addr : Addr} (he : s.err = 0) (hin : addr.toNat < s.cfg.memBytes) (data : Byte) :
    exec (.stb addr data) s = .next (s.answer ((s.memWrite1 addr.toNat data).respond 0)) := by
  have hf : faultOf s.cfg.memBytes (.stb addr data) = none := if_neg (Nat.not_le.2 hin)
  rw [exec_running he, Block.execute_of_no_fault hf, Block.effect]

theorem nextSeq_eq_ofNat (v : Half) : nextSeq v = BitVec.ofNat 16 ((v.toNat + 1) % 65536) := by
  rw [← toNat_nextSeq, BitVec.ofNat_toNat, BitVec.setWidth_eq]

/-! The obligations of 41_packet_builder.md. -/

/-- Settles O13, by the bytes, the frame and the response of `BUILD` in a running machine. -/
theorem buildWritesPacket : Obligations.BuildWritesPacket :=
  ⟨rfl, fun s he => ⟨_, exec_build_running he, s.answer_build, s.bytes_build s.cfg,
    fun _ => Block.byteAt_build_outside⟩⟩

/-- Settles O14: the sum is over the buffer with its field zero, and the field alone is written. -/
theorem sealStoresChecksum : Obligations.SealStoresChecksum := by
  refine ⟨rfl, ?_⟩
  rintro s raw _ he hraw rfl
  obtain rfl : raw = s.sealSum := hraw.trans s.sealSum_eq.symm
  exact ⟨s.toNat_sealSum_le, _, exec_sealPkt_running he, s.answer_sealPkt, s.byteAt_sealPkt 2, s.byteAt_sealPkt 3,
    fun _ => Block.byteAt_sealPkt_outside⟩

/-- Settles O27: a step with a word changes `SEQ` as the block's step does, and a step without one keeps it. -/
theorem seqAdvancesOnBuildOnly : Obligations.SeqAdvancesOnBuildOnly := by
  intro s t hstep
  rw [← nextSeq_eq_ofNat]
  cases hc : s.cmds with
  | nil =>
    obtain rfl := Host.Outcome.next.inj ((step_of_cmds_nil hc).symm.trans hstep)
    exact (if_neg fun h => nomatch h.2).symm
  | cons w ws =>
    obtain rfl := Host.Outcome.next.inj ((step_of_cmds_cons hc).symm.trans hstep)
    simp only [State.answer_toBlock, Block.step_seq, List.head?_cons, Option.some.injEq]

/-- Settles O46: the sum reads neither byte that `SEAL` writes, so the old checksum never enters the new one. -/
theorem sealIdempotent : Obligations.SealIdempotent := by
  refine ⟨fun s t he hwf hseal => ?_, fun s t u v addr data he _ hin hseal hstb hreseal => ?_⟩
  · obtain rfl := eq_answer_sealPkt hseal he
    rw [exec_sealPkt_running (s := s.answer s.sealPkt) he, State.answer_toBlock, Block.sealPkt_sealPkt hwf]
    rfl
  · obtain rfl := eq_answer_sealPkt hseal he
    obtain rfl := Host.Outcome.next.inj ((exec_stb_admitted (s := s.answer s.sealPkt) he hin data).symm.trans hstb)
    obtain rfl := eq_answer_sealPkt hreseal he
    refine ⟨?_, Block.chk_bytes_sealPkt _⟩
    have hsum : (s.sealPkt.1.memWrite1 addr.toNat data).sealSum =
        wordsum (storeField ((s.bytes 0 64).set addr.toNat data) 2 0) := by
      rw [Block.sealSum_memWrite1_sealPkt, Block.sealSum_eq, Block.bytes_memWrite1]
    exact congrArg (fun raw => ~~~(fold raw)) hsum

/-- Settles O47: the packet that `BUILD` leaves has the word sum `a`, which `SEAL` folds. -/
theorem mkpktPacket : Obligations.MkpktPacket := by
  rintro s a _ he rfl rfl
  have hident := s.cfg.ident.isLt
  have hseq := s.seq.isLt
  have hfold := toNat_fold_of_pos (acc := BitVec.ofNat 32 (0x0800 + s.cfg.ident.toNat + s.seq.toNat))
    (by rw [BitVec.toNat_ofNat]; omega)
  have het : (s.answer (s.build s.cfg)).err = 0 := by rw [s.answer_build]; exact he
  refine ⟨by omega, ?_, _, _, exec_build_running he, exec_sealPkt_running het, rfl, ?_, ?_, fun x hx => ?_⟩
  · rw [BitVec.toNat_not, hfold, BitVec.toNat_ofNat]
    omega
  · have hu := State.answer_build_answer_sealPkt (s := s) rfl rfl
    rwa [State.answer_toBlock, Block.sealSum_build, nextSeq_eq_ofNat] at hu
  · exact s.bytes_sealPkt_build s.cfg
  · exact (Block.byteAt_sealPkt_outside (by omega) (by omega)).trans (Block.byteAt_build_outside hx)

/-- Settles O48: the sum of a buffer that verifies is a multiple of 0xFFFF other than 0. -/
theorem sealedPacketVerifies : Obligations.SealedPacketVerifies := by
  intro s t u he hseal hu hsize hbytes
  obtain rfl := eq_answer_sealPkt hseal he
  have hchk : chk (u.bytes 0 64) = 0x0000 := by
    rw [hbytes]
    exact s.chk_bytes_sealPkt
  have hfold := chk_eq_zero_iff.1 hchk
  obtain ⟨hpos, hmod⟩ := fold_eq_ones_iff.1 hfold
  refine ⟨_, exec_csum_admitted hu hsize, congrArg (fun c : Half => some (⟨c.setWidth 32, 0⟩ : Response)) hchk, hchk,
    (zeroFlag_iff _).2 hchk, fun hzero => ?_, hmod, hfold⟩
  exact absurd (congrArg BitVec.toNat hzero) hpos.ne'

/-- Settles O49: this is the packet of `MKPKT` (O47) for the identifier 0 and the sequence number 0. -/
theorem referencePacket : Obligations.ReferencePacket := by
  have hsum : wordsum (0x08 :: List.replicate 63 0x00) = 0x00000800 := wordsum_packet 0 0
  have hfold : fold 0x00000800 = 0x0800 := by decide
  have hchk : chk (0x08 :: List.replicate 63 0x00) = 0xF7FF := by
    rw [chk, hsum, hfold]
    rfl
  refine ⟨hsum, hfold, hchk, fun s he hident hseq => ?_⟩
  have ha : 0x0800 = 0x0800 + s.cfg.ident.toNat + s.seq.toNat := by rw [hident, hseq]; rfl
  obtain ⟨-, -, t, u, hbuild, hseal, -, hu, hbytes, -⟩ := mkpktPacket s 0x0800 0xF7FF he ha (by decide)
  obtain rfl := Host.Outcome.next.inj ((exec_build_running he).symm.trans hbuild)
  refine ⟨_, u, hbuild, ?_, hseal, ?_, ?_⟩
  · refine (s.bytes_build s.cfg).trans ?_
    rw [hident, hseq]
    rfl
  · rw [← u.take_bytes 0 (by decide : 8 ≤ 64), hbytes, hident, hseq]
    rfl
  · rw [hu]
    rfl

end Sys2Proof.Machine
end

section
/-! SUPPORT. The host access commands (42_access.md): a command without a fault in a running machine, the register that
`RDREG` reads, and what the fault registers hold while the machine runs. -/

namespace Sys2Proof.Machine

variable {s : State}

/-- A command that raises no fault has its effect in a running machine. -/
theorem exec_of_no_fault {i : Instr} (he : s.err = 0) (hf : faultOf s.cfg.memBytes i = none) :
    exec i s = .next (s.answer (s.effect s.cfg i)) := by
  rw [exec_running he, Block.execute_of_no_fault hf]

/-! Registers (R123, 10_state.md R30). -/

/-- `RDREG` of a register answers its value and changes nothing. -/
theorem exec_rdreg_of_regOfNum {reg : RegNum} {r : RegName} (he : s.err = 0) (hr : regOfNum reg = some r) :
    exec (.rdreg reg) s = .next { s with rsp := some ⟨s.readReg s.cfg r, 0⟩ } := by
  have hnamed : ¬ 5 < reg.toNat := by simp [← regOfNum_eq_none_iff, hr]
  have hf : faultOf s.cfg.memBytes (.rdreg reg) = none := if_neg hnamed
  rw [exec_of_no_fault he hf, Block.effect, hr]
  rfl

/-- While the machine runs, `HALT` and `ERR` are 0, so `STATUS` shows `Z` alone (10_state.md R26). -/
theorem Block.statusView_running {b : Block} (he : b.err = 0) : b.statusView = if b.z then 2 else 0 := by
  rw [Block.statusView, Block.halted_eq_false_iff.2 he, he]
  cases b.z <;> rfl

/-- A consistent fault record of a running machine is empty: a recorded fault would have latched its code. -/
theorem State.FaultRecordOk.fcmd_eq_zero (hok : s.FaultRecordOk) (he : s.err = 0) : s.fcmd = 0 := by
  obtain ⟨-, hfcmd⟩ | ⟨code, -, hlatched⟩ := hok
  · exact hfcmd
  · exact absurd (hlatched.symm.trans he) code.bits_ne_zero

/-! The obligations of 42_access.md. -/

/-- Settles O18: the byte is read back at its address and every other byte is kept; an address that is not admitted is
the fault. -/
theorem stbWritesByte : Obligations.StbWritesByte := by
  refine ⟨fun addr data => toNat_encode (.stb addr data), fun s addr data he hin => ?_, fun s addr data he hout => ?_⟩
  · have hbyte := s.byteAt_memWrite1 addr.toNat data
    refine ⟨_, exec_stb_admitted he hin data, rfl, (hbyte _).trans (if_pos rfl),
      fun a ha => (hbyte a).trans (if_neg ha), fun hsame a => ?_⟩
    rw [State.answer_toBlock, Block.respond_block, hbyte]
    split_ifs with ha
    · rw [ha, hsame]
    · rfl
  · have hf : faultOf s.cfg.memBytes (.stb addr data) = some .range := if_pos hout
    exact exec_of_fault he hf

/-- Settles O19: numbers 0 to 5 name the six registers and the others none; a running machine's consistent fault record
is empty. -/
theorem rdregReturnsRegister : Obligations.RdregReturnsRegister := by
  refine ⟨fun reg => toNat_encode (.rdreg reg), fun s he => ⟨?_, exec_rdreg_of_regOfNum (r := .seq) he rfl,
    exec_rdreg_of_regOfNum (r := .ident) he rfl, exec_rdreg_of_regOfNum (r := .acc) he rfl,
    exec_rdreg_of_regOfNum (r := .result) he rfl, exec_rdreg_of_regOfNum (r := .fcmd) he rfl⟩, fun s he hok => ?_,
    fun s reg he hreg => ?_⟩
  · rw [← Block.statusView_running he]
    exact exec_rdreg_of_regOfNum (r := .status) he rfl
  · rw [← hok.fcmd_eq_zero he]
    exact exec_rdreg_of_regOfNum (r := .fcmd) he rfl
  · have hf : faultOf s.cfg.memBytes (.rdreg reg) = some .regnum := if_pos hreg
    exact exec_of_fault he hf

/-- Settles O12: `NOP` has no effect but its response, and a halted machine refuses it like every command. -/
theorem nopDoesNothing : Obligations.NopDoesNothing :=
  ⟨rfl, fun _ he => exec_of_no_fault he rfl, fun _ he => exec_halted he .nop⟩

/-- Settles O17: an admitted byte is the response, and an address that is not admitted is the fault. -/
theorem ldbReturnsByte : Obligations.LdbReturnsByte := by
  refine ⟨fun addr => toNat_encode (.ldb addr), fun s addr he hin => ?_, fun s addr he hout => ?_⟩
  · have hf : faultOf s.cfg.memBytes (.ldb addr) = none := if_neg (Nat.not_le.2 hin)
    exact exec_of_no_fault he hf
  · have hf : faultOf s.cfg.memBytes (.ldb addr) = some .range := if_pos hout
    exact exec_of_fault he hf

end Sys2Proof.Machine
end

section
/-! SUPPORT. Faults (60_exceptions.md): a step of a halted machine, a step over a word that causes no fault, and from
these the fault code and the fault record after every step. -/

namespace Sys2Proof.Machine

variable {s t : State} {w : Word} {ws : List Word}

/-! The halted machine (R143). -/

/-- A word issued in a halted machine is taken and refused undecoded, and nothing else changes. -/
theorem step_of_halted (he : s.err ≠ 0) (hc : s.cmds = w :: ws) :
    step s = .next { s with cmds := ws, rsp := some ⟨0, 15⟩ } := by
  rw [step_of_cmds_cons hc, Block.step_halted s.cfg he]
  rfl

/-- No step changes the block of a halted machine, with or without a word to come. -/
theorem toBlock_of_step_halted (he : s.err ≠ 0) (hstep : step s = .next t) : t.toBlock = s.toBlock := by
  obtain hblock | ⟨w, -, -, hblock⟩ := step_toBlock_cases hstep
  · exact hblock
  · rw [hblock, Block.step_halted s.cfg he]

/-! The causes of a fault (R140). -/

/-- The latched codes are the first three (R140). -/
theorem FaultCode.bits_of_latched {code : FaultCode} (h : code.latched = true) :
    code.bits = 1 ∨ code.bits = 2 ∨ code.bits = 3 := by
  cases code with
  | illegal => exact .inl rfl
  | regnum => exact .inr (.inl rfl)
  | range => exact .inr (.inr rfl)
  | halted => cases h

/-- The word of a command that has no fault causes none. -/
theorem not_causesFault_of_decode {n : Nat} {i : Instr} (hd : decode w = .ok i) (hf : faultOf n i = none)
    (code : FaultCode) : ¬ CausesFault n w code := by
  rw [causesFault_of_decode hd, hf]
  exact nofun

/-! The running machine: a word causes a fault, or its step keeps the fault record. -/

/-- No command's effect writes `FCMD` (R146). -/
@[simp] theorem Block.effect_fcmd {b : Block} {cfg : Cfg} {i : Instr} : (b.effect cfg i).1.fcmd = b.fcmd := by
  cases i with
  | build => rw [Block.effect, Block.build_block, Block.advanceSeq_fcmd, Block.writePacket_fcmd]
  | nop | sealPkt | csum base len | ldb addr | stb addr data | rdreg reg => rfl

/-- A word that causes no fault leaves a running machine running, and `FCMD` as it was. -/
theorem step_of_no_fault (he : s.err = 0) (hc : s.cmds = w :: ws) (hstep : step s = .next t)
    (hnone : ∀ code, ¬ CausesFault s.cfg.memBytes w code) : t.err = 0 ∧ t.fcmd = s.fcmd := by
  obtain rfl := Host.Outcome.next.inj ((step_of_cmds_cons hc).symm.trans hstep)
  rw [State.answer_toBlock]
  obtain ⟨hhalted, -⟩ | ⟨-, code, -, hcause, -⟩ | ⟨-, i, -, -, hs⟩ := Block.step_cases s.cfg s.toBlock w
  · exact absurd he hhalted
  · exact absurd hcause (hnone code)
  · rw [hs]
    exact ⟨Block.effect_err.trans he, Block.effect_fcmd⟩

/-- The state after a word that causes a fault, of `step_of_causesFault`. -/
theorem eq_of_step_of_causesFault {code : FaultCode} (he : s.err = 0) (hc : s.cmds = w :: ws)
    (hstep : step s = .next t) (hcause : CausesFault s.cfg.memBytes w code) :
    t = { s with cmds := ws, err := code.bits, fcmd := w, rsp := some ⟨0, code.bits⟩ } :=
  Host.Outcome.next.inj (hstep.symm.trans (step_of_causesFault he hc hcause))

/-- A step halts a running machine only by a fault that the word causes (R140, R142). -/
theorem exists_causesFault_of_step (he : s.err = 0) (hc : s.cmds = w :: ws) (hstep : step s = .next t)
    (hne : t.err ≠ 0) : ∃ code, CausesFault s.cfg.memBytes w code := by
  by_contra hnone
  exact hne (step_of_no_fault he hc hstep (not_exists.1 hnone)).1

/-- After a step of a running machine `STATUS.ERR` is a fault's code exactly when the word causes that fault (R140). -/
theorem step_err_eq_bits_iff (he : s.err = 0) (hc : s.cmds = w :: ws) (hstep : step s = .next t) (code : FaultCode) :
    t.err = code.bits ↔ CausesFault s.cfg.memBytes w code := by
  constructor
  · intro hcode
    obtain ⟨raised, hcause⟩ :=
      exists_causesFault_of_step he hc hstep fun hzero => code.bits_ne_zero (hcode.symm.trans hzero)
    have hraised : t.err = raised.bits := congrArg (·.err) (eq_of_step_of_causesFault he hc hstep hcause)
    rwa [FaultCode.bits_injective (hcode.symm.trans hraised)]
  · intro hcause
    exact congrArg (·.err) (eq_of_step_of_causesFault he hc hstep hcause)

/-! The obligations of 60_exceptions.md. -/

/-- Settles O11, by induction on the words: the first is refused, and the state it leaves is halted like the first. -/
theorem haltedForever : Obligations.HaltedForever := by
  intro s w ws
  induction ws generalizing s w with
  | nil => exact fun he hc => (runs_cons hc (step_of_halted he hc) rfl).2 (runs_nil.2 ⟨rfl, rfl⟩)
  | cons v ws ih => exact fun he hc => (runs_cons hc (step_of_halted he hc) rfl).2 (ih _ v he rfl)

/-- Settles O34: a halted machine keeps its record, a fault of a running one records the word that causes it, and every
other word leaves the record of a running machine, which is empty. -/
theorem stepKeepsFaultRecordOk : Obligations.StepKeepsFaultRecordOk := by
  intro s t hok hstep
  have hkeep (hblock : t.toBlock = s.toBlock) : t.FaultRecordOk := by
    unfold State.FaultRecordOk
    rwa [hblock, step_cfg hstep]
  by_cases he : s.err = 0
  · cases hc : s.cmds with
    | nil =>
      obtain rfl := Host.Outcome.next.inj ((step_of_cmds_nil hc).symm.trans hstep)
      exact hkeep rfl
    | cons w ws =>
      by_cases hfault : ∃ code, CausesFault s.cfg.memBytes w code
      · obtain ⟨code, hcause⟩ := hfault
        rw [eq_of_step_of_causesFault he hc hstep hcause]
        exact .inr ⟨code, hcause, rfl⟩
      · obtain ⟨herr, hfcmd⟩ := step_of_no_fault he hc hstep (not_exists.1 hfault)
        exact .inl ⟨herr, hfcmd.trans (hok.fcmd_eq_zero he)⟩
  · exact hkeep (toBlock_of_step_halted he hstep)

/-- Settles O10: the halted check stands before decoding, and in every command's own meaning. -/
theorem haltedRefusesEveryWord : Obligations.HaltedRefusesEveryWord :=
  ⟨fun _ _ _ he hc => step_of_halted he hc, fun i _ he => exec_halted he i⟩

/-- Settles O23: the word causes a fault, which latches one of the three codes; a halted machine keeps its block. -/
theorem faultsArePrecise : Obligations.FaultsArePrecise := by
  refine ⟨fun s t w ws he hc hstep hne => ?_, fun s t he hstep => ?_⟩
  · obtain ⟨code, hcause⟩ := exists_causesFault_of_step he hc hstep hne
    obtain rfl := eq_of_step_of_causesFault he hc hstep hcause
    exact ⟨FaultCode.bits_of_latched hcause.latched, rfl, Block.halted_iff.2 hne⟩
  · rw [toBlock_of_step_halted he hstep]
    exact ⟨rfl, rfl⟩

/-- Settles O24: the code after a step tells the fault, and 15 is the code of a fault that no word causes. -/
theorem faultCodesAndCauses : Obligations.FaultCodesAndCauses := by
  refine ⟨fun s t w ws he hc hstep => ?_, fun s t w ws he hc hstep => ?_, fun n code => ?_⟩
  · have hcode := step_err_eq_bits_iff he hc hstep
    refine ⟨hcode, ⟨fun hzero code hcause => ?_, fun hnone => (step_of_no_fault he hc hstep hnone).1⟩,
      fun hne => ?_, fun h15 => ?_⟩
    · exact code.bits_ne_zero (((hcode code).2 hcause).symm.trans hzero)
    · obtain ⟨code, hcause⟩ := exists_causesFault_of_step he hc hstep hne
      rw [eq_of_step_of_causesFault he hc hstep hcause]
    · have hlatched : FaultCode.halted.latched = true := ((hcode .halted).1 h15).latched
      cases hlatched
  · obtain rfl := Host.Outcome.next.inj ((step_of_halted he hc).symm.trans hstep)
    exact ⟨rfl, rfl⟩
  · exact ⟨not_causesFault_of_decode (i := .nop) rfl rfl code, not_causesFault_of_decode (i := .build) rfl rfl code,
      not_causesFault_of_decode (i := .sealPkt) rfl rfl code⟩

/-- Settles O9: the step without a word idles. -/
theorem noWordKeepsState : Obligations.NoWordKeepsState := fun _ hc => step_of_cmds_nil hc

/-- Settles O25: bit 0 makes the word illegal before its address is looked at; a halted machine does not decode it. -/
theorem decodeCheckedBeforeRange : Obligations.DecodeCheckedBeforeRange := by
  intro s ws hc
  have hd : decode 0x04FFF001 = .error .ldbZero := rfl
  exact ⟨fun he => step_of_causesFault he hc ((causesFault_of_illegal hd).2 rfl), fun he => step_of_halted he hc⟩

end Sys2Proof.Machine
end

section
/-! SUPPORT. Reset (70_reset_and_hazards.md): the bytes of `MEM` after the reset port, and from that the obligation of
section 1. -/

namespace Sys2Proof.Machine

variable {b : Block} {contents : Memory} {a : Nat} {v : Byte}

theorem Block.byteAt_of_get?_eq_some (h : b.mem.get? a = some v) : b.byteAt a = v := by
  rw [Block.byteAt, h, Option.getD_some]

theorem Block.assertReset_halted (b : Block) (contents : Memory) : (b.assertReset contents).halted = false :=
  Block.halted_eq_false_iff.2 (b.assertReset_err contents)

theorem Block.byteAt_assertReset (h : contents.get? a = some v) : (b.assertReset contents).byteAt a = v :=
  Block.byteAt_of_get?_eq_some (by rwa [Block.assertReset_mem])

/-- Settles O31, from what the reset port leaves in each field of the block and beside it. -/
theorem resetPort : Obligations.ResetPort := by
  intro s contents
  rw [State.assertReset_toBlock]
  exact ⟨s.assertReset_seq contents, s.assertReset_acc contents, s.assertReset_result contents,
    s.assertReset_z contents, s.assertReset_err contents, s.assertReset_halted contents, s.assertReset_fcmd contents,
    s.assertReset_cfg contents, s.assertReset_rsp contents, fun _ _ => Block.byteAt_assertReset⟩

end Sys2Proof.Machine
end
